-- ==== Sys2Proof/Word.lean ====
section
/-! DEFINITION. The two widths of the machine (spec/00_scope.md rules R4, R5): bytes for the 8-bit registers and
the opcodes, words for the pairs, `SP` and `PC`. `BitVec` addition is the spec's `+_8` and `+_16`. -/

namespace Sys2Proof

/-- `u8` of rule R5: an 8-bit register, an opcode, a byte of the instruction stream. -/
abbrev Byte := BitVec 8

/-- `u16` of rule R5: a pair, `SP`, `PC`, an address. -/
abbrev Word := BitVec 16

end Sys2Proof
end

