-- ==== Sys2Proof/Config.lean ====
section
/-! DEFINITION. What an implementation fixes and the free values (spec/00_scope.md rule R4). A parameter the spec
leaves OPEN is either an argument of the definitions that use it (`ResetRegs`) or an opaque constant. -/

namespace Sys2Proof

/-- `RESET_REGS` (rules R4, R29): the ten register values the reset event installs. OPEN, so `Cpu.reset` takes one
as its argument. -/
structure ResetRegs where
  a : Byte
  f : Byte
  b : Byte
  c : Byte
  d : Byte
  e : Byte
  h : Byte
  l : Byte
  sp : Word
  pc : Word
  deriving DecidableEq, Repr

/-- `MEM_BYTE_ORDER` (rules R4, R43): the two orders a multi-byte value in memory can have. -/
inductive ByteOrder where
  | littleEndian
  | bigEndian
  deriving DecidableEq, Repr, Inhabited

namespace Config

/-- DESIGN CHOICE (log 1), unsafe: the record `State.reset` is built from. The spec gives no value and tells a model
never to assume zero; the row's interface needs one closed state. No statement rests on these zeros. -/
def resetRegs : ResetRegs :=
  { a := 0, f := 0, b := 0, c := 0, d := 0, e := 0, h := 0, l := 0, sp := 0, pc := 0 }

/-- Whether a host write stores the low four bits of `F` (rule R4: the mask is `0xFF` or `0xF0`, OPEN). Free, log 2. -/
opaque fLowBitsStored : Bool

/-- `F_WRITE_MASK` (rules R4, R16): one of the two values the spec admits, and nothing says which. -/
def fWriteMask : Byte := if fLowBitsStored then 0xFF else 0xF0

/-- `MEM_BYTE_ORDER` (rule R43): OPEN, and no rule reads it. Free, log 7. -/
opaque memByteOrder : ByteOrder

end Config

end Sys2Proof
end

