-- ==== Sys2Proof/Syntax.lean ====
section
/-! DEFINITION. The names of the registers and pairs, the instruction set, and the instruction descriptor
(spec/10_state.md rules R10, R13, R14; spec/30_encoding.md rule R63; spec/40_step_dispatch.md rule R83). -/

namespace Sys2Proof

/-- `Reg8` (rules R6, R10, R13): the seven general registers and the opaque flag register. -/
inductive Reg8 where
  | a | b | c | d | e | h | l | f
  deriving DecidableEq, Repr

/-- `Pair16` (rule R14): BC, DE, HL and SP. `PC` is no member (rule R12), and there is no AF (rule R13). -/
inductive Pair16 where
  | bc | de | hl | sp
  deriving DecidableEq, Repr

/-- "The semantic effect" field of a descriptor (rule R83): increment by 1, wrapping. -/
inductive Effect where
  | increment
  deriving DecidableEq, Repr

/-- The static descriptor of a handler (rule R83). -/
structure Descriptor where
  opcode : Byte
  operandBytes : Nat
  pair : Pair16
  effect : Effect
  cost : Nat
  deriving DecidableEq, Repr

/-- The implemented instruction set (rule R63): one constructor per row of spec/opcode_table.json. No instruction has
an operand field: the pair is implied by the opcode (rule R65). -/
inductive Instr where
  | incBc
  | incDe
  | incHl
  | incSp
  deriving DecidableEq, Repr

end Sys2Proof
end

