-- ==== Sys2Proof/WellFormed.lean ====
section
/-! DEFINITION. The checks on descriptors and on reset records. An `Instr` has no field, so an instruction is
well-formed when its descriptor is (`Instr.wf` in Decode.lean, where the descriptors stand). -/

namespace Sys2Proof

/-- The opcode byte a descriptor of the INC16 family must have for its pair (rule R63). -/
def Descriptor.opcodeOk (d : Descriptor) : Bool :=
  match d.pair with
  | .bc => d.opcode == 0x03#8
  | .de => d.opcode == 0x13#8
  | .hl => d.opcode == 0x23#8
  | .sp => d.opcode == 0x33#8

/-- "0 bytes for the INC16 family" (rule R60). -/
def Descriptor.operandBytesOk (d : Descriptor) : Bool := d.operandBytes == 0

/-- `INC16_COST` (rules R4, R100): 8 cycles. -/
def Descriptor.costOk (d : Descriptor) : Bool := d.cost == 8

/-- A descriptor of the implemented set (rule R83). -/
def Descriptor.wf (d : Descriptor) : Bool := d.opcodeOk && d.operandBytesOk && d.costOk

/-- `RESET_REGS.F & mask = RESET_REGS.F` (rule R29) for a given write mask. -/
def ResetRegs.legalUnder (mask : Byte) (r : ResetRegs) : Bool := r.f &&& mask == r.f

/-- The condition rule R29 puts on `RESET_REGS`, at the machine's own mask. -/
def ResetRegs.legal (r : ResetRegs) : Bool := r.legalUnder Config.fWriteMask

end Sys2Proof
end

