-- ==== Sys2Proof/Decode.lean ====
section
/-! DEFINITION. The static descriptors, the dispatch mux (spec/30_encoding.md rules R60 to R68,
spec/40_step_dispatch.md rules R82, R83), the byte-list decoder built on it, and the encoder, which is written from
the field layout of rules R61 and R62 and not from the decoder's byte list. -/

namespace Sys2Proof

/-- The four static descriptors (rule R83). -/
def Instr.descriptor : Instr → Descriptor
  | .incBc => { opcode := 0x03#8, operandBytes := 0, pair := .bc, effect := .increment, cost := 8 }
  | .incDe => { opcode := 0x13#8, operandBytes := 0, pair := .de, effect := .increment, cost := 8 }
  | .incHl => { opcode := 0x23#8, operandBytes := 0, pair := .hl, effect := .increment, cost := 8 }
  | .incSp => { opcode := 0x33#8, operandBytes := 0, pair := .sp, effect := .increment, cost := 8 }

/-- An instruction is well-formed when its descriptor is. -/
def Instr.wf (i : Instr) : Bool := i.descriptor.wf

/-- The answer of the dispatch mux (rule R82): a handler, or none. -/
inductive Dispatched where
  | handler (i : Instr)
  | noHandler
  deriving DecidableEq, Repr

/-- The dispatch mux: total on all 256 bytes, "by exact byte match" (rules R68, R82). -/
def decode (b : Byte) : Dispatched :=
  if b = 0x03#8 then .handler .incBc
  else if b = 0x13#8 then .handler .incDe
  else if b = 0x23#8 then .handler .incHl
  else if b = 0x33#8 then .handler .incSp
  else .noHandler

/-- Why a list of bytes is no instruction: it ends too early, or its first byte has no handler (rule R64). -/
inductive DecodeError where
  | endOfBytes
  | noHandler (opcode : Byte)
  deriving DecidableEq, Repr

/-- The first instruction of a list of bytes and what follows it. The length is learnt from the opcode alone, through
the descriptor's operand-fetch size (rules R60, R66). -/
def decodeBytes : List Byte → Except DecodeError (Instr × List Byte)
  | [] => .error .endOfBytes
  | b :: rest =>
    match decode b with
    | .noHandler => .error (.noHandler b)
    | .handler i =>
      if rest.length < i.descriptor.operandBytes then .error .endOfBytes
      else .ok (i, rest.drop i.descriptor.operandBytes)

/-- The instructions a whole list of bytes holds, none where some byte in an opcode's place has no handler. Every
implemented instruction is one byte long (rule R60), so each byte stands in an opcode's place. -/
def disassemble : List Byte → Option (List Instr)
  | [] => some []
  | b :: rest =>
    match decode b with
    | .noHandler => none
    | .handler i => (disassemble rest).map (i :: ·)

/-- The pair selector `pp`, bits 5:4 of the opcode byte (rule R62). -/
def pairSelector : Pair16 → BitVec 2
  | .bc => 0b00
  | .de => 0b01
  | .hl => 0b10
  | .sp => 0b11

/-- Format `OP1` (rule R61): `00`, the pair selector, `0011`. -/
def encodeOp1 (p : Pair16) : Byte := 0b00#2 ++ pairSelector p ++ 0b0011#4

/-- The bytes of an instruction: its opcode byte and no operand byte (rules R60, R65). -/
def encode (i : Instr) : List Byte := [encodeOp1 i.descriptor.pair]

/-- The bytes of a table word of `nbits` bits, first byte first: bits 7..0 are the first byte, and bits above `nbits`
are 0. At least one byte, the longest instruction of the set. -/
def tableBytes (nbits w : Nat) : List Byte :=
  (List.range (max 1 ((nbits + 7) / 8))).map fun k => BitVec.ofNat 8 ((w % 2 ^ nbits) / 2 ^ (8 * k))

/-- The instruction the decoder reads from a word numbered as spec/opcode_table.json numbers it. -/
def decodeTableWord (nbits w : Nat) : Option Instr :=
  match decodeBytes (tableBytes nbits w) with
  | .ok (i, _) => some i
  | .error _ => none

end Sys2Proof
end

