-- ==== Sys2Proof/Machine/State.lean ====
section
/-! DEFINITION. The state of one CPU instance and of the memory collaborator it fetches from (spec/10_state.md,
spec/20_memory.md rules R40, R41), the reasons a step can stop, and reset (rules R29, R130). Plain data throughout. -/

namespace Sys2Proof.Machine

/-- The state of one CPU instance: exactly the eleven elements of the table of spec/10_state.md section 1 (rule R26).
`BC`, `DE` and `HL` have no storage of their own (rule R14); `SP` is one 16-bit register (rule R11); `cyc` is a
natural number without bound (rule R24). -/
structure Cpu where
  a : Byte
  f : Byte
  b : Byte
  c : Byte
  d : Byte
  e : Byte
  h : Byte
  l : Byte
  sp : Word
  pc : Word
  cyc : Nat
  deriving DecidableEq, Repr

/-- The instruction stream as (address, byte) pairs, addresses strictly rising and below 2^16. An address that is not
listed has no byte: the collaborator answers `OutOfBounds` there (rule R41). -/
abbrev Memory := List Host.Cell

/-- The memory collaborator (rules R9, R41): its stream, and whether it leaves fetches unanswered (rule R134, the
model's own field, log 6). It is no part of the block. -/
structure Collab where
  stream : Memory
  silent : Bool
  deriving DecidableEq, Repr

/-- One CPU instance and its collaborator. `busy` is the port of rule R92: 1 from `step_req` to `step_done`. -/
structure State where
  cpu : Cpu
  busy : Bool
  collab : Collab
  deriving DecidableEq, Repr

/-- The two faults of the block (rule R110), with the information each records. -/
inductive Fault where
  /-- Raised by `stepOn` at stage 2, for a fetched byte without a handler (rule R111). Safe: the spec names this fault
  for all 252 such bytes. -/
  | unimplementedOpcode (opcode : Byte) (addr : Word)
  /-- Raised by `stepOn` at stage 1, for a fetch the collaborator answered `OutOfBounds` (rule R112), and at stage 3 for
  an operand byte, which no implemented instruction has. Safe: the spec names this fault. -/
  | outOfBoundsFetch (addr : Word)
  deriving DecidableEq, Repr

/-- What the spec gives no meaning (rules R9, R24, R91, R111, R134). All safe: nothing can be proved of what follows. -/
inductive Refusal where
  /-- Raised by an arm of `exec` for an instruction that has no meaning yet; no arm does. Safe. -/
  | notModelled (mnemonic : String)
  /-- Raised by `stepOn` when the collaborator never answers the fetch at `addr`: the step is stuck (rule R134). Safe. -/
  | fetchUnanswered (addr : Word)
  /-- Raised by `transact` for a register access while a step is in progress (rule R91). Safe. -/
  | hostAccessDuringStep
  /-- Raised by `stepReturning` and `stepRequest` for a step called while a step is in progress (rules R87, R91). Safe. -/
  | stepDuringStep
  /-- Raised by `fetchReply` when no step is in progress, so that no fetch waits for an answer (rule R45). Safe. -/
  | noStepInProgress
  /-- Raised by `inBuild` when the counter after the addition would not fit the build's width (rule R24). Safe. -/
  | cycleCounterFull
  /-- Raised by `inBuild` for every step and event of a build with a fallback opcode handler: such a build is outside the
  spec and a model does not admit it (rules R9, R111). Safe. -/
  | fallbackBuild
  deriving DecidableEq, Repr

/-- The reset event on the block (rule R130): the ten registers from `RESET_REGS`, the counter to 0. DESIGN CHOICE
(log 16), unsafe: a record whose `f` the write mask does not admit, which rule R29 only rules out, is installed as it
is, unmasked. -/
def Cpu.reset (r : ResetRegs) : Cpu :=
  { a := r.a, f := r.f, b := r.b, c := r.c, d := r.d, e := r.e, h := r.h, l := r.l, sp := r.sp, pc := r.pc, cyc := 0 }

/-- A machine right after reset with `RESET_REGS = r`: idle (rule R130), and a collaborator that holds nothing yet. -/
def State.resetWith (r : ResetRegs) : State :=
  { cpu := Cpu.reset r, busy := false, collab := { stream := [], silent := false } }

/-- The machine right after reset, at the record the model's log names (log 1). -/
def State.reset : State := State.resetWith Config.resetRegs

/-- `s` with another CPU context. -/
def State.withCpu (s : State) (c : Cpu) : State := { s with cpu := c }

/-- `s` with the busy port at `v`. -/
def State.withBusy (s : State) (v : Bool) : State := { s with busy := v }

/-- `s` with another collaborator. -/
def State.withCollab (s : State) (m : Collab) : State := { s with collab := m }

/-- `s` with another instruction stream in its collaborator. -/
def State.withStream (s : State) (m : Memory) : State := { s with collab := { s.collab with stream := m } }

end Sys2Proof.Machine
end

