-- ==== Sys2Proof/Machine/Flags.lean ====
section
/-! DEFINITION. The flag register. It is opaque (spec/10_state.md rule R13): no instruction in scope reads or writes a
bit of it (spec/41_inc16.md rule R100), so there is no flag computation; a host write goes through `F_WRITE_MASK`. -/

namespace Sys2Proof.Machine

/-- What `write8(F, v)` stores: `v & F_WRITE_MASK` (rule R16). -/
def storedFlags (v : Byte) : Byte := v &&& Config.fWriteMask

end Sys2Proof.Machine
end

