-- ==== Sys2Proof/Machine/Operands.lean ====
section
/-! DEFINITION. The register file's operations (spec/10_state.md rules R12, R14 to R18, R24): every way a register is
read or written goes through one of these. -/

namespace Sys2Proof.Machine

/-- `{h, l}` (rule R5): `h` in the high bits. -/
def catBytes (h l : Byte) : Word := h ++ l

/-- `v[15:8]`, the source's `v >> 8` (rules R5, R18). -/
def hiByte (v : Word) : Byte := v.extractLsb' 8 8

/-- `v[7:0]`, the source's `v & 0xFF` (rules R5, R18). -/
def loByte (v : Word) : Byte := v.extractLsb' 0 8

/-- `read8(r)` (rule R15). -/
def Cpu.read8 (r : Reg8) (c : Cpu) : Byte :=
  match r with
  | .a => c.a
  | .b => c.b
  | .c => c.c
  | .d => c.d
  | .e => c.e
  | .h => c.h
  | .l => c.l
  | .f => c.f

/-- `write8(r, v)` (rule R16): `F` takes `v & F_WRITE_MASK`, every other register takes `v`. -/
def Cpu.write8 (r : Reg8) (v : Byte) (c : Cpu) : Cpu :=
  match r with
  | .a => { c with a := v }
  | .b => { c with b := v }
  | .c => { c with c := v }
  | .d => { c with d := v }
  | .e => { c with e := v }
  | .h => { c with h := v }
  | .l => { c with l := v }
  | .f => { c with f := storedFlags v }

/-- `read16(p)` (rule R17): the first register named is the high byte. -/
def Cpu.read16 (p : Pair16) (c : Cpu) : Word :=
  match p with
  | .bc => catBytes c.b c.c
  | .de => catBytes c.d c.e
  | .hl => catBytes c.h c.l
  | .sp => c.sp

/-- `write16(p, v)` (rule R18): one operation on both halves, or on `SP` whole. -/
def Cpu.write16 (p : Pair16) (v : Word) (c : Cpu) : Cpu :=
  match p with
  | .bc => { c with b := hiByte v, c := loByte v }
  | .de => { c with d := hiByte v, e := loByte v }
  | .hl => { c with h := hiByte v, l := loByte v }
  | .sp => { c with sp := v }

/-- `read_pc()` (rule R12). -/
def Cpu.readPc (c : Cpu) : Word := c.pc

/-- `write_pc(v)` (rule R12). -/
def Cpu.writePc (v : Word) (c : Cpu) : Cpu := { c with pc := v }

/-- `read_cycles()` (rule R24). There is no write: only the commit of a step changes the counter. -/
def Cpu.readCycles (c : Cpu) : Nat := c.cyc

/-- What an effect makes of its operand (rules R83, R105): `v +_16 1`, wrapping, with no indication of the wrap. -/
def applyEffect (e : Effect) (v : Word) : Word :=
  match e with
  | .increment => v + 1

/-- The high 8-bit register of a split pair; `SP` has no addressable halves (rules R11, R14). -/
def highReg : Pair16 → Option Reg8
  | .bc => some .b
  | .de => some .d
  | .hl => some .h
  | .sp => none

/-- The low 8-bit register of a split pair. -/
def lowReg : Pair16 → Option Reg8
  | .bc => some .c
  | .de => some .e
  | .hl => some .l
  | .sp => none

end Sys2Proof.Machine
end

