-- ==== Sys2Proof/Machine/Ops.lean ====
section
/-! DEFINITION. The named operations over the instruction stream and the block: reading and changing the stream, the
fetch primitive (spec/20_memory.md rule R41), the operand fetch of stage 3 (spec/40_step_dispatch.md rules R80, R81),
the commit of stage 5, and raising a fault (spec/60_exceptions.md rule R116). -/

namespace Sys2Proof.Machine

/-- The byte of the stream at address `a`, none where the stream has no byte. -/
def Memory.get : Memory → Nat → Option Byte
  | [], _ => none
  | (x, y) :: m, a => if x = a then some y else Memory.get m a

/-- The stream with byte `b` at address `a`. -/
def Memory.put (a : Nat) (b : Byte) : Memory → Memory
  | [] => [(a, b)]
  | (x, y) :: m =>
    if a < x then (a, b) :: (x, y) :: m
    else if a = x then (a, b) :: m
    else (x, y) :: Memory.put a b m

/-- The stream without a byte at address `a`. -/
def Memory.drop (a : Nat) : Memory → Memory
  | [] => []
  | (x, y) :: m => if x = a then m else (x, y) :: Memory.drop a m

/-- The canonical form: addresses strictly rising, all inside the 16-bit address space (rule R40). No byte reads as an
unlisted address does, so no other condition is needed. -/
abbrev Memory.wf (m : Memory) : Prop :=
  m.Pairwise (fun p q => p.1 < q.1) ∧ ∀ p ∈ m, p.1 < 2 ^ 16

/-- The stream that holds `bytes` at `base`, `base + 1`, ... and nothing else; the range does not wrap, so what would
pass `0xFFFF` is left out (the fixture of spec/92_eei_decisions.md D23). -/
def Memory.fixture (base : Nat) : List Byte → Memory
  | [] => []
  | b :: bytes => if base < 2 ^ 16 then (base, b) :: Memory.fixture (base + 1) bytes else []

/-- What a fetch can meet (rules R41, R134): a byte, `OutOfBounds`, or no answer at all. -/
inductive FetchAnswer where
  | byte (b : Byte)
  | outOfBounds
  | noAnswer
  deriving DecidableEq, Repr

/-- `IFetch(addr)`, as the collaborator in State answers it (rule R41). -/
def iFetch (m : Collab) (addr : Word) : FetchAnswer :=
  if m.silent then .noAnswer
  else
    match Memory.get m.stream addr.toNat with
    | some b => .byte b
    | none => .outOfBounds

/-- How the operand fetch of stage 3 ends: with all its bytes, or at the address that gave none. -/
inductive OperandFetch where
  | bytes (bs : List Byte)
  | outOfBounds (addr : Word)
  | noAnswer (addr : Word)
  deriving DecidableEq, Repr

/-- Stage 3 (rules R66, R80): `n` further fetches from `addr` on, stopping at the first that gives no byte. No
implemented descriptor asks for any. -/
def fetchOperands (m : Collab) : Nat → Word → OperandFetch
  | 0, _ => .bytes []
  | n + 1, addr =>
    match iFetch m addr with
    | .noAnswer => .noAnswer addr
    | .outOfBounds => .outOfBounds addr
    | .byte b =>
      match fetchOperands m n (addr + 1) with
      | .bytes bs => .bytes (b :: bs)
      | stopped => stopped

/-- Stage 5 (rules R85, R89): the program counter past the bytes fetched, the cost onto the cycle counter. -/
def Cpu.commit (d : Descriptor) (c : Cpu) : Cpu :=
  { c with pc := c.pc + BitVec.ofNat 16 (1 + d.operandBytes), cyc := c.cyc + d.cost }

/-- Taking an exception, the one operation all faults go through (rule R116): the step ends with the fault and its
information and nothing is committed. No register saves anything, no mode changes and control goes nowhere in the
block; there is no return from it (rule R117). -/
def raise {σ : Type} (f : Fault) : Host.Outcome σ Fault Refusal := .fault f

/-- An outcome with its next state passed through `g`. -/
def mapNext {σ τ : Type} (g : σ → τ) : Host.Outcome σ Fault Refusal → Host.Outcome τ Fault Refusal
  | .next s => .next (g s)
  | .fault f => .fault f
  | .refused r => .refused r

/-- The numeric code of a fault (rule R110). -/
def Fault.code : Fault → Nat
  | .unimplementedOpcode _ _ => 1
  | .outOfBoundsFetch _ => 2

/-- The address a fault records (rule R110). -/
def Fault.addr : Fault → Word
  | .unimplementedOpcode _ addr => addr
  | .outOfBoundsFetch addr => addr

end Sys2Proof.Machine
end

