-- ==== Sys2Proof/Machine/Inc16.lean ====
section
/-! DEFINITION. The INC16 family (spec/41_inc16.md rules R100 to R105): one parametrised handler, instantiated four
times (spec/40_step_dispatch.md rule R84). -/

namespace Sys2Proof.Machine

/-- The block after an INC16 instruction with descriptor `d` (rule R100): the effect on the pair, then the commit. -/
def Cpu.inc16 (d : Descriptor) (c : Cpu) : Cpu :=
  Cpu.commit d (Cpu.write16 d.pair (applyEffect d.effect (Cpu.read16 d.pair c)) c)

/-- The INC16 handler (rule R100). It can raise nothing. -/
def inc16 (d : Descriptor) (s : State) : Host.Outcome State Fault Refusal :=
  .next (s.withCpu (s.cpu.inc16 d))

/-- `INC BC` (rule R101). -/
def execIncBc (s : State) : Host.Outcome State Fault Refusal := inc16 (Instr.descriptor .incBc) s

/-- `INC DE` (rule R102). -/
def execIncDe (s : State) : Host.Outcome State Fault Refusal := inc16 (Instr.descriptor .incDe) s

/-- `INC HL` (rule R103). The byte at the address in `HL` is not touched. -/
def execIncHl (s : State) : Host.Outcome State Fault Refusal := inc16 (Instr.descriptor .incHl) s

/-- `INC SP` (rule R104). No stack memory is touched. -/
def execIncSp (s : State) : Host.Outcome State Fault Refusal := inc16 (Instr.descriptor .incSp) s

end Sys2Proof.Machine
end

