-- ==== Sys2Proof/Machine/Dispatch.lean ====
section
/-! DEFINITION. The case of the handlers (spec/40_step_dispatch.md rule R80, stage 4): one arm per instruction. -/

namespace Sys2Proof.Machine

/-- Runs the handler of an instruction: its whole effect on the state, the commit of stage 5 included. -/
def exec (i : Instr) (s : State) : Host.Outcome State Fault Refusal :=
  match i with
  | .incBc => Sys2Proof.Machine.execIncBc s
  | .incDe => Sys2Proof.Machine.execIncDe s
  | .incHl => Sys2Proof.Machine.execIncHl s
  | .incSp => Sys2Proof.Machine.execIncSp s

end Sys2Proof.Machine
end

