-- ==== Sys2Proof/Machine/Pipeline.lean ====
section
/-! DEFINITION. The stages of a step (spec/40_step_dispatch.md rules R80, R81): fetch, dispatch, operand fetch, execute
and commit, and the cost a step returns (rule R86). -/

namespace Sys2Proof.Machine

/-- Stages 1 to 5 for a given answer to the opcode fetch at `PC`, and the cost returned. The answer is an argument: to
the block the collaborator is an oracle (rules R9, R41, R93). -/
def stepOn (answer : FetchAnswer) (s : State) : Host.Outcome (State × Nat) Fault Refusal :=
  match answer with
  | .noAnswer => .refused (.fetchUnanswered s.cpu.pc)
  | .outOfBounds => raise (.outOfBoundsFetch s.cpu.pc)
  | .byte b =>
    match decode b with
    | .noHandler => raise (.unimplementedOpcode b s.cpu.pc)
    | .handler i =>
      match fetchOperands s.collab i.descriptor.operandBytes (s.cpu.pc + 1) with
      | .noAnswer addr => .refused (.fetchUnanswered addr)
      | .outOfBounds addr => raise (.outOfBoundsFetch addr)
      | .bytes _ => mapNext (fun t => (t, i.descriptor.cost)) (exec i s)

/-- `step() -> Ok(cost) | Fault` (rule R80): the next state with the cost returned. A step called while a step is in
progress has no meaning (rules R87, R91). -/
def stepReturning (s : State) : Host.Outcome (State × Nat) Fault Refusal :=
  if s.busy then .refused .stepDuringStep
  else stepOn (iFetch s.collab s.cpu.pc) s

/-- `s` with the first byte of a table word in the stream at `PC`, the collaborator answering and the block idle: all
that the next step needs in order to fetch it. -/
def placeAtPc (nbits w : Nat) (s : State) : State :=
  { s with
    busy := false
    collab :=
      { stream := Memory.put s.cpu.pc.toNat ((tableBytes nbits w).headD 0) s.collab.stream
        silent := false } }

end Sys2Proof.Machine
end

