-- ==== Sys2Proof/Machine/Step.lean ====
section
/-! DEFINITION. The step of the machine (spec/40_step_dispatch.md rule R80), as the host interface asks for it. -/

namespace Sys2Proof.Machine

/-- One step: the next state of `stepReturning`, or its fault or refusal. -/
def step (s : State) : Host.Outcome State Fault Refusal := mapNext Prod.fst (stepReturning s)

/-- `s` with the table word's instruction (one byte) stored where `step` fetches next (log 4). -/
def State.withFetchWord (s : State) (nbits w : Nat) : State := placeAtPc nbits w s

end Sys2Proof.Machine
end

