-- ==== Sys2Proof/Machine/Interface.lean ====
section
/-! DEFINITION. The outside of the block: the host's transactions (spec/40_step_dispatch.md rules R91, R92,
spec/70_reset_and_hazards.md rule R130), what a step returns and its result ports (spec/60_exceptions.md rule R114),
the step split at its fetch (rule R92), and the collaborator's own changes (spec/20_memory.md rules R41, R51). -/

namespace Sys2Proof.Machine

/-- What a step returns (rules R80, R114): `Ok(cost)` or `Fault(code, info)`. -/
inductive StepResult where
  | ok (cost : Nat)
  | fault (f : Fault)
  deriving DecidableEq, Repr

/-- A transaction of the host (rule R92). Reset carries its `RESET_REGS`, which the spec leaves OPEN (rule R29). -/
inductive Transaction where
  | reset (r : ResetRegs)
  | step
  | read8 (r : Reg8)
  | write8 (r : Reg8) (v : Byte)
  | read16 (p : Pair16)
  | write16 (p : Pair16) (v : Word)
  | readPc
  | writePc (v : Word)
  | readCycles
  deriving DecidableEq, Repr

/-- What comes back from a transaction or an event. -/
inductive Reply where
  | done
  | byte (v : Byte)
  | word (v : Word)
  | cycles (n : Nat)
  | stepped (r : StepResult)
  deriving DecidableEq, Repr

/-- A step as a transaction: a fault is the value returned, and the state after it is the state `s` it began in, in
every element (rule R116). `s` has the busy port low. -/
def returnStep (s : State) : Host.Outcome (State × Nat) Fault Refusal → Host.Outcome (State × Reply) Fault Refusal
  | .next (t, cost) => .next (t, .stepped (.ok cost))
  | .fault f => .next (s, .stepped (.fault f))
  | .refused r => .refused r

/-- A register access of the host: legal only between steps (rule R91). -/
def hostAccess (s : State) (c : Cpu) (r : Reply) : Host.Outcome (State × Reply) Fault Refusal :=
  if s.busy then .refused .hostAccessDuringStep else .next (s.withCpu c, r)

/-- The reset event (rule R130): allowed at any time; a step in progress is discarded; the collaborator is not the
block's and keeps its contents. DESIGN CHOICE (log 16), unsafe: a record that breaks rule R29's condition on `F`
(`ResetRegs.legal` false) is installed unmasked and not refused. -/
def hostReset (r : ResetRegs) (s : State) : State := (s.withCpu (Cpu.reset r)).withBusy false

/-- One transaction of the host (rules R15 to R18, R12, R24, R80, R91, R130). -/
def transact (x : Transaction) (s : State) : Host.Outcome (State × Reply) Fault Refusal :=
  match x with
  | .reset r => .next (hostReset r s, .done)
  | .step => returnStep s (stepReturning s)
  | .read8 r => hostAccess s s.cpu (.byte (s.cpu.read8 r))
  | .write8 r v => hostAccess s (s.cpu.write8 r v) .done
  | .read16 p => hostAccess s s.cpu (.word (s.cpu.read16 p))
  | .write16 p v => hostAccess s (s.cpu.write16 p v) .done
  | .readPc => hostAccess s s.cpu (.word s.cpu.readPc)
  | .writePc v => hostAccess s (s.cpu.writePc v) .done
  | .readCycles => hostAccess s s.cpu (.cycles s.cpu.readCycles)

/-- `step_req` (rule R92): legal only when `busy` is 0; raises it. The fetch at `PC` then waits for its answer. -/
def stepRequest (s : State) : Host.Outcome State Fault Refusal :=
  if s.busy then .refused .stepDuringStep else .next (s.withBusy true)

/-- The collaborator's answer to the outstanding fetch, and with it `step_done` (rule R92): the stages of the step run
and `busy` falls. Without an answer the step stays in progress, which only reset ends (rules R130, R134). -/
def fetchReply (answer : FetchAnswer) (s : State) : Host.Outcome (State × Reply) Fault Refusal :=
  if s.busy then returnStep (s.withBusy false) (stepOn answer (s.withBusy false))
  else .refused .noStepInProgress

/-- The request on the fetch port, `if_req` and `if_addr` (rules R45, R92): the value of `PC` while a step is in
progress, none between steps. -/
def fetchRequest (s : State) : Option Word := if s.busy then some s.cpu.pc else none

/-- The result ports (rules R92, R114). Absent where rule R114 gives a port no value (log 9). -/
structure ResultPorts where
  stepCost : BitVec 8
  stepFault : BitVec 2
  faultOpcode : Option Byte
  faultAddr : Option Word
  deriving DecidableEq, Repr

/-- What the result ports carry with `step_done` (rule R114). -/
def StepResult.ports : StepResult → ResultPorts
  | .ok cost => { stepCost := BitVec.ofNat 8 cost, stepFault := 0, faultOpcode := none, faultAddr := none }
  | .fault (.unimplementedOpcode op addr) =>
    { stepCost := 0, stepFault := 1, faultOpcode := some op, faultAddr := some addr }
  | .fault (.outOfBoundsFetch addr) =>
    { stepCost := 0, stepFault := 2, faultOpcode := none, faultAddr := some addr }

/-- A change the collaborator, or whoever owns its contents, makes by itself (rules R41, R51, R134). -/
inductive CollabEvent where
  | put (addr : Word) (b : Byte)
  | drop (addr : Word)
  | load (base : Word) (bytes : List Byte)
  | setSilent (v : Bool)
  deriving DecidableEq, Repr

/-- The collaborator after one of its changes. -/
def collabAct (e : CollabEvent) (m : Collab) : Collab :=
  match e with
  | .put addr b => { m with stream := Memory.put addr.toNat b m.stream }
  | .drop addr => { m with stream := Memory.drop addr.toNat m.stream }
  | .load base bytes => { m with stream := Memory.fixture base.toNat bytes }
  | .setSilent v => { m with silent := v }

/-- Everything that can happen to an instance: a transaction of the host, the two halves of a step, a change of the
collaborator (rule R9: there is no other agent). -/
inductive Event where
  | host (x : Transaction)
  | collab (e : CollabEvent)
  | request
  | reply (answer : FetchAnswer)
  deriving DecidableEq, Repr

/-- One event. -/
def act (e : Event) (s : State) : Host.Outcome (State × Reply) Fault Refusal :=
  match e with
  | .host x => transact x s
  | .collab e => .next (s.withCollab (collabAct e s.collab), .done)
  | .request => mapNext (fun t => (t, Reply.done)) (stepRequest s)
  | .reply answer => fetchReply answer s

end Sys2Proof.Machine
end

