-- ==== Sys2Proof/Machine/Build.lean ====
section
/-! DEFINITION. What a hardware build adds to the model and where the model gives it no meaning: a cycle counter of
finite width (spec/10_state.md rule R24) and the policy for an opcode without a handler (spec/60_exceptions.md rule
R111). Neither is state: both are fixed when the block is built (rule R25). -/

namespace Sys2Proof.Machine

/-- `UNIMPL_POLICY` (rules R4, R111). The block in scope is `fatal`. -/
inductive UnimplPolicy where
  | fatal
  | fallback
  deriving DecidableEq, Repr

/-- The parameters of a build: `CYC_W` and `UNIMPL_POLICY`. -/
structure Build where
  cycWidth : Nat
  policy : UnimplPolicy
  deriving DecidableEq, Repr

/-- A build the spec describes: the minimal core, with a counter of at least 64 bits (rules R24, R111). -/
def Build.inScope (b : Build) : Bool := decide (64 ≤ b.cycWidth) && b.policy == .fatal

/-- An outcome of the model as a build gives it (log 8). A build with a fallback handler is outside the spec and is
refused whatever it is asked to do (rules R9, R111). A build of the minimal core answers as the model does, but that a
counter past `2^CYC_W - 1` has no meaning (rule R24); `cyc` reads the counter of a next state. DESIGN CHOICE (log 17):
a fatal build narrower than the 64 bits rule R24 asks for, on which the rule is silent, is not refused as a whole; it
answers by the same rule at its own width. `Build.inScope` excludes it. -/
def inBuild {σ : Type} (b : Build) (cyc : σ → Nat) (o : Host.Outcome σ Fault Refusal) : Host.Outcome σ Fault Refusal :=
  match b.policy with
  | .fallback => .refused .fallbackBuild
  | .fatal =>
    match o with
    | .next t => if cyc t < 2 ^ b.cycWidth then .next t else .refused .cycleCounterFull
    | .fault f => raise f
    | .refused r => .refused r

/-- A step of a build. -/
def stepBuild (b : Build) (s : State) : Host.Outcome State Fault Refusal :=
  inBuild b (fun t => t.cpu.cyc) (step s)

/-- An event on a build. Only a step or a reset moves the counter, so for a state whose counter fits the width the
width matters to steps alone. DESIGN CHOICE (log 17): a state whose counter is already past the width, which no such
build holds, is refused any event that keeps it so. -/
def actBuild (b : Build) (e : Event) (s : State) : Host.Outcome (State × Reply) Fault Refusal :=
  inBuild b (fun p => p.1.cpu.cyc) (act e s)

end Sys2Proof.Machine
end

