-- ==== Sys2Proof/Machine/Instances.lean ====
section
/-! DEFINITION. Several instances side by side (spec/10_state.md rule R27): each is a state of its own, and what
happens to one is an event on that state alone. -/

namespace Sys2Proof.Machine

/-- An event on instance `k` of `n`. -/
def actAt {n : Nat} (k : Fin n) (e : Event) (v : Vector State n) :
    Host.Outcome (Vector State n × Reply) Fault Refusal :=
  mapNext (fun p => (v.set k p.1, p.2)) (act e v[k])

end Sys2Proof.Machine
end

