-- ==== Sys2Proof/Safety.lean ====
section
/-! DEFINITION. What claims are made of: runs (spec/92_eei_decisions.md D21), safe runs, and the invariant of the
machine. -/

namespace Sys2Proof.Machine

/-- A run of `n` steps, cut short by the first fault or refusal (rules R9, R117). -/
def run (n : Nat) (s : State) : Host.Outcome State Fault Refusal := Host.Core.run Sys2Proof.core n s

/-- A run of `n` steps that ends normally: every one of them returned `Ok`. -/
def SafeRun (n : Nat) (s : State) : Prop := ∃ t, run n s = .next t

/-- A list of events, one after another, each of which has a meaning. -/
def runEvents : List Event → State → Host.Outcome State Fault Refusal
  | [], s => .next s
  | e :: es, s =>
    match act e s with
    | .next (t, _) => runEvents es t
    | .fault f => .fault f
    | .refused r => .refused r

/-- The reset records an event brings in satisfy rule R29's condition on `RESET_REGS.F`. -/
def Event.legal : Event → Bool
  | .host (.reset r) => r.legal
  | _ => true

/-- The invariant: the stream is in canonical form; `F` holds a value a host write could have stored (rule R29); and
the counter is a sum of INC16 costs (rules R24, R133). -/
def State.Inv (s : State) : Prop :=
  Memory.wf s.collab.stream ∧ s.cpu.f &&& Config.fWriteMask = s.cpu.f ∧ 8 ∣ s.cpu.cyc

/-- The stream holds the opcode bytes of `is` at `pc`, `pc +_16 1`, ... in order, and the collaborator answers with
them (rule R90: a run executes the bytes at `PC`, `PC + 1`, ... in order). -/
def HoldsAt (m : Collab) (pc : Word) : List Instr → Prop
  | [] => True
  | i :: is => iFetch m pc = .byte i.descriptor.opcode ∧ HoldsAt m (pc + 1) is

end Sys2Proof.Machine
end

