-- ==== Sys2Proof/Certificates/Slice0/Obligations.lean ====
section
/-! DEFINITION. The statements for the provers, from the numbered rules of spec/. None rests on the reset values of
log 1 (one says that `State.reset`, built from them, meets the invariant), nor on which of its two values the free write mask has. -/

open Sys2Proof Sys2Proof.Machine

/-! ### Reset and the invariant -/

/-- The reset event (rules R29, R130, decision D6), idle or in the middle of a step: the ten registers from
`RESET_REGS`, the counter at 0, no step in progress, the collaborator as it was; and the next step fetches at
`RESET_REGS.PC`. It holds for every `RESET_REGS`; that a record breaking rule R29's condition on `F` is installed all
the same is the model's choice (log 16). -/
def Obligations.ResetInstallsItsRecordAndClearsTheCounter : Prop :=
  ∀ (r : ResetRegs) (s : State), ∃ t, transact (.reset r) s = .next (t, .done) ∧
    t.cpu.a = r.a ∧ t.cpu.f = r.f ∧ t.cpu.b = r.b ∧ t.cpu.c = r.c ∧ t.cpu.d = r.d ∧ t.cpu.e = r.e ∧
    t.cpu.h = r.h ∧ t.cpu.l = r.l ∧ t.cpu.sp = r.sp ∧ t.cpu.pc = r.pc ∧ t.cpu.cyc = 0 ∧
    t.busy = false ∧ t.collab = s.collab ∧
    stepReturning t = stepOn (iFetch s.collab r.pc) t

/-- The invariant holds after reset, for every record that satisfies rule R29's condition on `F`, and at the state the
host interface starts from, whose register values are the model's choice (log 1). -/
def Obligations.ResetMeetsTheInvariant : Prop :=
  (∀ r : ResetRegs, r.legal = true → (State.resetWith r).Inv) ∧ State.reset.Inv

/-- Every step keeps the invariant: the stream stays canonical, `F` stays a value a host write could have stored, and
the counter stays a sum of INC16 costs. -/
def Obligations.StepKeepsTheInvariant : Prop :=
  ∀ s t : State, s.Inv → step s = .next t → t.Inv

/-- So does every sequence of events, whatever the host, the collaborator and its answers are, as long as each reset
brings a legal record. -/
def Obligations.EveryEventSequenceKeepsTheInvariant : Prop :=
  ∀ (es : List Event) (s t : State), s.Inv → (∀ e ∈ es, e.legal = true) → runEvents es s = .next t → t.Inv

/-- Nothing but a step that returns `Ok(8)` or a reset moves the cycle counter; a step adds what it returns, a reset
clears it (rules R24, R85, R91, R130). -/
def Obligations.CounterMovesOnlyByStepOrReset : Prop :=
  ∀ (e : Event) (s t : State) (r : Reply), act e s = .next (t, r) →
    t.cpu.cyc = s.cpu.cyc ∨
    ((e = .host .step ∨ ∃ answer, e = .reply answer) ∧ r = .stepped (.ok 8) ∧ t.cpu.cyc = s.cpu.cyc + 8) ∨
    ((∃ regs, e = .host (.reset regs)) ∧ t.cpu.cyc = 0)

/-! ### The register file -/

/-- Rule R15: `read8` returns the named register, changes nothing and never fails. -/
def Obligations.Read8ReturnsTheNamedRegister : Prop :=
  ∀ s : State, s.busy = false →
    transact (.read8 .a) s = .next (s, .byte s.cpu.a) ∧
    transact (.read8 .b) s = .next (s, .byte s.cpu.b) ∧
    transact (.read8 .c) s = .next (s, .byte s.cpu.c) ∧
    transact (.read8 .d) s = .next (s, .byte s.cpu.d) ∧
    transact (.read8 .e) s = .next (s, .byte s.cpu.e) ∧
    transact (.read8 .h) s = .next (s, .byte s.cpu.h) ∧
    transact (.read8 .l) s = .next (s, .byte s.cpu.l) ∧
    transact (.read8 .f) s = .next (s, .byte s.cpu.f)

/-- Rule R16 with decision D5: `write8` sets the named register and nothing else; `F` takes `v & F_WRITE_MASK`, and the
mask, which is free (log 2), is one of the two values the spec admits. -/
def Obligations.Write8SetsOneRegisterAndMasksFlags : Prop :=
  (Config.fWriteMask = 0xFF#8 ∨ Config.fWriteMask = 0xF0#8) ∧
  ∀ (s : State) (v : Byte), s.busy = false →
    transact (.write8 .a v) s = .next (s.withCpu { s.cpu with a := v }, .done) ∧
    transact (.write8 .b v) s = .next (s.withCpu { s.cpu with b := v }, .done) ∧
    transact (.write8 .c v) s = .next (s.withCpu { s.cpu with c := v }, .done) ∧
    transact (.write8 .d v) s = .next (s.withCpu { s.cpu with d := v }, .done) ∧
    transact (.write8 .e v) s = .next (s.withCpu { s.cpu with e := v }, .done) ∧
    transact (.write8 .h v) s = .next (s.withCpu { s.cpu with h := v }, .done) ∧
    transact (.write8 .l v) s = .next (s.withCpu { s.cpu with l := v }, .done) ∧
    transact (.write8 .f v) s = .next (s.withCpu { s.cpu with f := v &&& Config.fWriteMask }, .done)

/-- Rule R17: `read16` returns the pair with its first register as the high byte, or `SP`; it changes nothing and never
fails. The value is given as a number, so the recomposition is lossless. -/
def Obligations.Read16ComposesHighByteFirst : Prop :=
  ∀ (s : State) (p : Pair16), s.busy = false →
    ∃ w, transact (.read16 p) s = .next (s, .word w) ∧
      (p = .bc → w.toNat = s.cpu.b.toNat * 256 + s.cpu.c.toNat) ∧
      (p = .de → w.toNat = s.cpu.d.toNat * 256 + s.cpu.e.toNat) ∧
      (p = .hl → w.toNat = s.cpu.h.toNat * 256 + s.cpu.l.toNat) ∧
      (p = .sp → w = s.cpu.sp)

/-- Rule R18: `write16` stores `v >> 8` and `v & 0xFF` in the halves of a split pair, or `v` in `SP` whole, and changes
nothing else, in one transition; for a split pair that is the two 8-bit writes, in either order. -/
def Obligations.Write16DecomposesIntoHalves : Prop :=
  ∀ (s : State) (v : Word) (hi lo : Byte), s.busy = false → hi.toNat = v.toNat / 256 → lo.toNat = v.toNat % 256 →
    transact (.write16 .bc v) s = .next (s.withCpu { s.cpu with b := hi, c := lo }, .done) ∧
    transact (.write16 .de v) s = .next (s.withCpu { s.cpu with d := hi, e := lo }, .done) ∧
    transact (.write16 .hl v) s = .next (s.withCpu { s.cpu with h := hi, l := lo }, .done) ∧
    transact (.write16 .sp v) s = .next (s.withCpu { s.cpu with sp := v }, .done) ∧
    ∀ (p : Pair16) (hr lr : Reg8), highReg p = some hr → lowReg p = some lr →
      s.cpu.write16 p v = (s.cpu.write8 hr hi).write8 lr lo ∧
      s.cpu.write16 p v = (s.cpu.write8 lr lo).write8 hr hi

/-- Rule R19: what `write16` stored, `read16` returns, for every pair and value; and what `write8` stored, `read8`
returns, but for `F`, which returns `v & F_WRITE_MASK` (the 8-bit half is marked derived in the rule; the mask is free,
log 2). -/
def Obligations.WrittenValuesReadBack : Prop :=
  ∀ s : State, s.busy = false →
    (∀ (p : Pair16) (v : Word), ∃ t, transact (.write16 p v) s = .next (t, .done) ∧
      transact (.read16 p) t = .next (t, .word v)) ∧
    (∀ (r : Reg8) (v : Byte), ∃ t, transact (.write8 r v) s = .next (t, .done) ∧
      transact (.read8 r) t = .next (t, .byte (if r = .f then v &&& Config.fWriteMask else v)))

/-- Rule R20: the 8-bit and 16-bit views of a split pair are one storage. Writing a half shows in the pair and leaves
the other half; writing the pair shows in both halves; the pair always reads as its halves. -/
def Obligations.PairAndHalvesShareStorage : Prop :=
  ∀ (p : Pair16) (hr lr : Reg8) (c : Cpu), highReg p = some hr → lowReg p = some lr →
    (c.read16 p).toNat = (c.read8 hr).toNat * 256 + (c.read8 lr).toNat ∧
    (∀ a : Byte, ((c.write8 hr a).read16 p).toNat = a.toNat * 256 + (c.read8 lr).toNat ∧
      (c.write8 hr a).read8 lr = c.read8 lr) ∧
    (∀ b : Byte, ((c.write8 lr b).read16 p).toNat = (c.read8 hr).toNat * 256 + b.toNat ∧
      (c.write8 lr b).read8 hr = c.read8 hr) ∧
    (∀ v : Word, ((c.write16 p v).read8 hr).toNat = v.toNat / 256 ∧ ((c.write16 p v).read8 lr).toNat = v.toNat % 256)

/-- Rule R21 (and R12, R24): between steps no register access of the host can fail; a read changes no state; `write8`
is not seen in any other register, `write16` in no register outside its pair, `write_pc` in `PC` alone; and none of
them touches the counter or the collaborator. `write_pc` then `read_pc` returns the value (decision D4). -/
def Obligations.HostAccessesChangeWhatTheyName : Prop :=
  ∀ s : State, s.busy = false →
    (∀ r, ∃ v, transact (.read8 r) s = .next (s, .byte v)) ∧
    (∀ p, ∃ v, transact (.read16 p) s = .next (s, .word v)) ∧
    transact .readPc s = .next (s, .word s.cpu.pc) ∧
    transact .readCycles s = .next (s, .cycles s.cpu.cyc) ∧
    (∀ v, transact (.writePc v) s = .next (s.withCpu { s.cpu with pc := v }, .done) ∧
      transact .readPc (s.withCpu { s.cpu with pc := v }) =
        .next (s.withCpu { s.cpu with pc := v }, .word v)) ∧
    (∀ r v, ∃ t, transact (.write8 r v) s = .next (t, .done) ∧ t.collab = s.collab ∧ t.busy = false ∧
      t.cpu.cyc = s.cpu.cyc ∧ t.cpu.pc = s.cpu.pc ∧ t.cpu.sp = s.cpu.sp ∧
      ∀ q, q ≠ r → t.cpu.read8 q = s.cpu.read8 q) ∧
    (∀ p v, ∃ t, transact (.write16 p v) s = .next (t, .done) ∧ t.collab = s.collab ∧ t.busy = false ∧
      t.cpu.cyc = s.cpu.cyc ∧ t.cpu.pc = s.cpu.pc ∧ (p ≠ .sp → t.cpu.sp = s.cpu.sp) ∧
      ∀ q : Reg8, highReg p ≠ some q → lowReg p ≠ some q → t.cpu.read8 q = s.cpu.read8 q)

/-- Rule R91 with decision D19: while a step is in progress every register access and every further step call is
refused, by name, and reset alone is not. -/
def Obligations.HostIsRefusedDuringAStep : Prop :=
  ∀ s : State, s.busy = true →
    (∀ r, transact (.read8 r) s = .refused .hostAccessDuringStep) ∧
    (∀ r v, transact (.write8 r v) s = .refused .hostAccessDuringStep) ∧
    (∀ p, transact (.read16 p) s = .refused .hostAccessDuringStep) ∧
    (∀ p v, transact (.write16 p v) s = .refused .hostAccessDuringStep) ∧
    transact .readPc s = .refused .hostAccessDuringStep ∧
    (∀ v, transact (.writePc v) s = .refused .hostAccessDuringStep) ∧
    transact .readCycles s = .refused .hostAccessDuringStep ∧
    transact .step s = .refused .stepDuringStep ∧ step s = .refused .stepDuringStep ∧
    ∀ r, ∃ t, transact (.reset r) s = .next (t, .done) ∧ t.busy = false

/-! ### Encoding and dispatch -/

/-- Rule R63: the four bytes of the opcode map, each with its instruction, pair, length and cost; the bytes are written
out bit by bit from the table. -/
def Obligations.OpcodeMapRowsDecode : Prop :=
  decode 0b00000011#8 = .handler .incBc ∧ decodeTableWord 8 0x03 = some .incBc ∧
  decode 0b00010011#8 = .handler .incDe ∧ decodeTableWord 8 0x13 = some .incDe ∧
  decode 0b00100011#8 = .handler .incHl ∧ decodeTableWord 8 0x23 = some .incHl ∧
  decode 0b00110011#8 = .handler .incSp ∧ decodeTableWord 8 0x33 = some .incSp ∧
  Instr.incBc.descriptor.pair = .bc ∧ Instr.incDe.descriptor.pair = .de ∧
  Instr.incHl.descriptor.pair = .hl ∧ Instr.incSp.descriptor.pair = .sp ∧
  ∀ i : Instr, i.descriptor.operandBytes = 0 ∧ (encode i).length = 1 ∧ i.descriptor.cost = 8

/-- Rule R64: each of the other 252 bytes has no handler, and a step that fetches one ends with
`UnimplementedOpcode`; exactly four of the 256 have one. -/
def Obligations.EveryOtherByteIsUnimplemented : Prop :=
  (∀ b : Byte, b ≠ 0x03#8 → b ≠ 0x13#8 → b ≠ 0x23#8 → b ≠ 0x33#8 →
    decode b = .noHandler ∧
    ∀ s : State, s.busy = false → iFetch s.collab s.cpu.pc = .byte b →
      step s = .fault (.unimplementedOpcode b s.cpu.pc)) ∧
  ((List.range 256).filter fun n => decode (BitVec.ofNat 8 n) == .noHandler).length = 252

/-- Rule R82: the dispatch mux gives an answer for every byte and matches on all eight bits: a byte selects a handler
exactly when it is that handler's opcode, so it selects at most one. With the rule's three examples. -/
def Obligations.DispatchIsTotalAndMatchesTheWholeByte : Prop :=
  (∀ (b : Byte) (i : Instr), decode b = .handler i ↔ b = i.descriptor.opcode) ∧
  (∀ b : Byte, decode b = .noHandler ∨ ∃ i, decode b = .handler i ∧ ∀ j, decode b = .handler j → j = i) ∧
  decode 0x23#8 = .handler .incHl ∧ decode 0x00#8 = .noHandler ∧ decode 0x32#8 = .noHandler

/-- Rules R61 and R62, both marked derived: the byte match is the field reading `00 pp 0011`, with `pp` the selector of
the handler's pair. -/
def Obligations.DispatchAgreesWithOpcodeFields : Prop :=
  ∀ (b : Byte) (i : Instr), decode b = .handler i ↔
    b.extractLsb' 6 2 = 0b00#2 ∧ b.extractLsb' 0 4 = 0b0011#4 ∧ b.extractLsb' 4 2 = pairSelector i.descriptor.pair

/-- Decoding a list of bytes gives an instruction and the rest exactly when the list is the instruction's encoding
followed by the rest; every instruction is well-formed. -/
def Obligations.DecodeBytesIsTheInverseOfEncode : Prop :=
  ∀ (i : Instr) (bs rest : List Byte), i.wf = true ∧ (decodeBytes bs = .ok (i, rest) ↔ bs = encode i ++ rest)

/-- Decode and encode agree on whole streams: a list of bytes reads as a list of instructions exactly when it is
their encodings joined. So no bit of an encoding is dropped and no two streams read alike. -/
def Obligations.DisassemblyInvertsEncodingOfStreams : Prop :=
  ∀ (bs : List Byte) (is : List Instr), disassemble bs = some is ↔ bs = is.flatMap encode

/-- Rule R83: the four descriptors, field by field, with the one effect they share. -/
def Obligations.DescriptorsHoldTheTableValues : Prop :=
  Instr.incBc.descriptor = ⟨0x03#8, 0, .bc, .increment, 8⟩ ∧
  Instr.incDe.descriptor = ⟨0x13#8, 0, .de, .increment, 8⟩ ∧
  Instr.incHl.descriptor = ⟨0x23#8, 0, .hl, .increment, 8⟩ ∧
  Instr.incSp.descriptor = ⟨0x33#8, 0, .sp, .increment, 8⟩ ∧
  ∀ v : Word, (applyEffect .increment v).toNat = (v.toNat + 1) % 65536

/-! ### The step -/

/-- When the stream holds a byte at `PC` that decodes to an instruction, the collaborator answers and the block is
idle, a step is that instruction's execution, and nothing is added around it. -/
def Obligations.StepRunsTheDecodedInstruction : Prop :=
  ∀ (s : State) (b : Byte) (i : Instr), s.busy = false → s.collab.silent = false →
    Memory.get s.collab.stream s.cpu.pc.toNat = some b → decode b = .handler i →
    step s = exec i s

/-- Rule R80: the step on an idle block, by what the fetch at `PC` is answered. No byte: `OutOfBoundsFetch`. A byte
without a handler: `UnimplementedOpcode`. Otherwise the one pair plus 1, `PC` plus 1, `CYC` plus the cost, the cost
returned, and everything else as before. Either fault leaves the state as it was. (The advance of `PC` is decision D3,
log 11, and the uncommitted fault is D10, log 12, both adopted by the rule's pseudocode.) -/
def Obligations.StepFetchesDispatchesExecutesCommits : Prop :=
  ∀ s : State, s.busy = false →
    (iFetch s.collab s.cpu.pc = .outOfBounds →
      step s = .fault (.outOfBoundsFetch s.cpu.pc) ∧
      transact .step s = .next (s, .stepped (.fault (.outOfBoundsFetch s.cpu.pc)))) ∧
    ∀ b, iFetch s.collab s.cpu.pc = .byte b →
      (decode b = .noHandler →
        step s = .fault (.unimplementedOpcode b s.cpu.pc) ∧
        transact .step s = .next (s, .stepped (.fault (.unimplementedOpcode b s.cpu.pc)))) ∧
      ∀ i, decode b = .handler i →
        let p := i.descriptor.pair
        let t := s.withCpu
          { s.cpu.write16 p (s.cpu.read16 p + 1) with pc := s.cpu.pc + 1, cyc := s.cpu.cyc + i.descriptor.cost }
        step s = .next t ∧ stepReturning s = .next (t, i.descriptor.cost) ∧
        transact .step s = .next (t, .stepped (.ok i.descriptor.cost))

/-- Rule R94: the cost a step returns is a function of the opcode byte alone, whatever the registers, `PC`, the counter
or earlier steps. -/
def Obligations.CostDependsOnTheOpcodeAlone : Prop :=
  ∀ b : Byte, ∃ cost : Nat, ∀ (s t : State) (n : Nat), stepOn (.byte b) s = .next (t, n) → n = cost

/-- Rules R85 and R86 (decision D8): what a step returns is what it added to the counter, 8 for every instruction, and
`read_cycles` shows the total. -/
def Obligations.ReturnedCostIsTheCounterDifference : Prop :=
  ∀ (s t : State) (n : Nat), transact .step s = .next (t, .stepped (.ok n)) →
    n = 8 ∧ transact .readCycles s = .next (s, .cycles s.cpu.cyc) ∧
    transact .readCycles t = .next (t, .cycles (s.cpu.cyc + n))

/-- Rule R89 with decision D3 (log 11): `PC` advances by one modulo 2^16, so `0x0000` follows `0xFFFF`; decision D10 (log 12): a faulting
step leaves it at the byte it could not run. -/
def Obligations.ProgramCounterAdvancesByOneOrStays : Prop :=
  (∀ s t : State, step s = .next t → t.cpu.pc.toNat = (s.cpu.pc.toNat + 1) % 65536) ∧
  (∀ (s t : State) (f : Fault), transact .step s = .next (t, .stepped (.fault f)) →
    t.cpu.pc = s.cpu.pc ∧ f.addr = s.cpu.pc)

/-- Rule R88: a step that does not fault changes the one pair its opcode names, `PC` and `CYC`, and nothing else; one
that faults changes nothing (decision D10, log 12). -/
def Obligations.SideEffectsOfAStepAreConfined : Prop :=
  (∀ s t : State, step s = .next t →
    t.collab = s.collab ∧ t.busy = s.busy ∧ t.cpu.a = s.cpu.a ∧ t.cpu.f = s.cpu.f ∧
    ∃ i : Instr, iFetch s.collab s.cpu.pc = .byte i.descriptor.opcode ∧
      ∀ q, q ≠ i.descriptor.pair → t.cpu.read16 q = s.cpu.read16 q) ∧
  (∀ (s t : State) (f : Fault), transact .step s = .next (t, .stepped (.fault f)) → t = s)

/-- Rule R93, marked derived: the outcome of a step on the block is a function of the block and of the answer at `PC`;
whatever else the collaborator holds cannot be told from it. -/
def Obligations.StepDependsOnBlockAndAnswerOnly : Prop :=
  ∀ s s' : State, s.busy = s'.busy → s.cpu = s'.cpu →
    iFetch s.collab s.cpu.pc = iFetch s'.collab s'.cpu.pc →
    mapNext (fun t => (t.cpu, t.busy)) (step s) = mapNext (fun t => (t.cpu, t.busy)) (step s')

/-- Rule R87 over the handshake of rule R92, which the spec marks as its own choice (decisions D1, D2), with the step
split at its fetch as the model does it (log 5): the atomic step is the request and the collaborator's answer with
nothing seen between them. The request changes no register, asks for the byte at `PC`, and the answer gives just what the step transaction gives. A reset in
between leaves no trace of the step (rule R130, decision D6). -/
def Obligations.AtomicStepIsRequestThenReply : Prop :=
  ∀ s : State, s.busy = false →
    ∃ u, stepRequest s = .next u ∧ u.cpu = s.cpu ∧ u.collab = s.collab ∧ fetchRequest s = none ∧
      fetchRequest u = some s.cpu.pc ∧
      fetchReply (iFetch s.collab s.cpu.pc) u = transact .step s ∧
      ∀ r, transact (.reset r) u = transact (.reset r) s

/-- Rule R51 with decision D14: a byte put at `PC` between two steps is the one the next step runs, with nothing in
between; a byte taken away there makes the next step fault. -/
def Obligations.NextFetchSeesAChangedStream : Prop :=
  ∀ s : State, s.busy = false → s.collab.silent = false →
    (∀ i : Instr, ∃ u, act (.collab (.put s.cpu.pc i.descriptor.opcode)) s = .next (u, .done) ∧
      u.cpu = s.cpu ∧ step u = exec i u) ∧
    (Memory.wf s.collab.stream → ∃ u, act (.collab (.drop s.cpu.pc)) s = .next (u, .done) ∧
      u.cpu = s.cpu ∧ step u = .fault (.outOfBoundsFetch s.cpu.pc))

/-- Rule R134, marked derived: a step whose fetch is answered ends, in a next state or a fault; one whose fetch is never
answered is stuck (log 6). -/
def Obligations.AnsweredStepEnds : Prop :=
  ∀ s : State, s.busy = false →
    (iFetch s.collab s.cpu.pc ≠ .noAnswer → (∃ t, step s = .next t) ∨ ∃ f, step s = .fault f) ∧
    (iFetch s.collab s.cpu.pc = .noAnswer → step s = .refused (.fetchUnanswered s.cpu.pc))

/-- The instruction the host places with `withFetchWord` is the one the next step runs, in every state. -/
def Obligations.PlacedInstructionRunsNext : Prop :=
  ∀ (s : State) (i : Instr),
    step (s.withFetchWord 8 i.descriptor.opcode.toNat) = exec i (s.withFetchWord 8 i.descriptor.opcode.toNat) ∧
    (s.withFetchWord 8 i.descriptor.opcode.toNat).cpu = s.cpu

/-! ### The instructions -/

/-- Rule R100 (the advance of `PC` is decision D3, log 11), for all four instructions and in every state: running one answers a next state in which the pair it names
has gained 1, `PC` 1 and `CYC` 8; every other pair, every 8-bit register that is no half of the pair, `A`, `F` and
every byte of the stream is as before; and once its opcode byte is fetched the step cannot fault and returns 8. -/
def Obligations.Inc16ChangesItsPairAndNothingElse : Prop :=
  ∀ (i : Instr) (s : State), ∃ t, exec i s = .next t ∧
    t.cpu.read16 i.descriptor.pair = s.cpu.read16 i.descriptor.pair + 1 ∧
    t.cpu.pc = s.cpu.pc + 1 ∧ t.cpu.cyc = s.cpu.cyc + 8 ∧
    (∀ q, q ≠ i.descriptor.pair → t.cpu.read16 q = s.cpu.read16 q) ∧
    (∀ r : Reg8, highReg i.descriptor.pair ≠ some r → lowReg i.descriptor.pair ≠ some r →
      t.cpu.read8 r = s.cpu.read8 r) ∧
    t.cpu.a = s.cpu.a ∧ t.cpu.f = s.cpu.f ∧
    (∀ addr, iFetch t.collab addr = iFetch s.collab addr) ∧ t.collab = s.collab ∧ t.busy = s.busy ∧
    stepOn (.byte i.descriptor.opcode) s = .next (t, 8)

/-- Rule R101, `INC BC` (the advance of `PC` is decision D3, log 11): in every state, with its encoding, the whole next state, its cost and the corner cases. -/
def Obligations.IncBcIncrementsBc : Prop :=
  encode .incBc = [0x03#8] ∧ ∀ s : State, ∃ b c : Byte,
    let t := s.withCpu { s.cpu with b := b, c := c, pc := s.cpu.pc + 1, cyc := s.cpu.cyc + 8 }
    exec .incBc s = .next t ∧ stepOn (.byte 0x03#8) s = .next (t, 8) ∧
    b.toNat * 256 + c.toNat = (s.cpu.b.toNat * 256 + s.cpu.c.toNat + 1) % 65536 ∧
    (s.cpu.b = 0xFF#8 → s.cpu.c = 0xFF#8 → b = 0x00#8 ∧ c = 0x00#8) ∧
    (s.cpu.c = 0xFF#8 → b = s.cpu.b + 1 ∧ c = 0x00#8) ∧
    ∀ addr, iFetch t.collab addr = iFetch s.collab addr

/-- Rule R102, `INC DE` (the advance of `PC` is decision D3, log 11): in every state, with its encoding, the whole next state, its cost and the corner cases. -/
def Obligations.IncDeIncrementsDe : Prop :=
  encode .incDe = [0x13#8] ∧ ∀ s : State, ∃ d e : Byte,
    let t := s.withCpu { s.cpu with d := d, e := e, pc := s.cpu.pc + 1, cyc := s.cpu.cyc + 8 }
    exec .incDe s = .next t ∧ stepOn (.byte 0x13#8) s = .next (t, 8) ∧
    d.toNat * 256 + e.toNat = (s.cpu.d.toNat * 256 + s.cpu.e.toNat + 1) % 65536 ∧
    (s.cpu.d = 0xFF#8 → s.cpu.e = 0xFF#8 → d = 0x00#8 ∧ e = 0x00#8) ∧
    (s.cpu.e = 0xFF#8 → d = s.cpu.d + 1 ∧ e = 0x00#8) ∧
    ∀ addr, iFetch t.collab addr = iFetch s.collab addr

/-- Rule R103, `INC HL` (the advance of `PC` is decision D3, log 11): in every state, with its encoding, the whole next state, its cost and the corner cases; the
byte at the address in `HL` is as before and does not bear on the result. -/
def Obligations.IncHlIncrementsHl : Prop :=
  encode .incHl = [0x23#8] ∧ ∀ s : State, ∃ h l : Byte,
    let t := s.withCpu { s.cpu with h := h, l := l, pc := s.cpu.pc + 1, cyc := s.cpu.cyc + 8 }
    exec .incHl s = .next t ∧ stepOn (.byte 0x23#8) s = .next (t, 8) ∧
    h.toNat * 256 + l.toNat = (s.cpu.h.toNat * 256 + s.cpu.l.toNat + 1) % 65536 ∧
    (s.cpu.h = 0xFF#8 → s.cpu.l = 0xFF#8 → h = 0x00#8 ∧ l = 0x00#8) ∧
    (s.cpu.l = 0xFF#8 → h = s.cpu.h + 1 ∧ l = 0x00#8) ∧
    (∀ addr, iFetch t.collab addr = iFetch s.collab addr) ∧
    ∀ b, exec .incHl (s.withStream (Memory.put (s.cpu.read16 .hl).toNat b s.collab.stream)) =
      .next (t.withStream (Memory.put (s.cpu.read16 .hl).toNat b s.collab.stream))

/-- Rule R104, `INC SP` (the advance of `PC` is decision D3, log 11): in every state, with its encoding, the whole next state, its cost and the corner case. -/
def Obligations.IncSpIncrementsSp : Prop :=
  encode .incSp = [0x33#8] ∧ ∀ s : State, ∃ sp : Word,
    let t := s.withCpu { s.cpu with sp := sp, pc := s.cpu.pc + 1, cyc := s.cpu.cyc + 8 }
    exec .incSp s = .next t ∧ stepOn (.byte 0x33#8) s = .next (t, 8) ∧
    sp.toNat = (s.cpu.sp.toNat + 1) % 65536 ∧ (s.cpu.sp = 0xFFFF#16 → sp = 0x0000#16) ∧
    ∀ addr, iFetch t.collab addr = iFetch s.collab addr

/-- Rule R105, whose second half is marked derived: the increment of a split pair through its halves. The low register
gains 1 modulo 2^8 and the high one takes the carry exactly when the low one was `0xFF`. -/
def Obligations.IncrementCarriesFromLowToHighHalf : Prop :=
  ∀ (i : Instr) (s : State) (hr lr : Reg8), highReg i.descriptor.pair = some hr → lowReg i.descriptor.pair = some lr →
    ∃ t, exec i s = .next t ∧ t.cpu.read8 lr = s.cpu.read8 lr + 1 ∧
      t.cpu.read8 hr = (if s.cpu.read8 lr = 0xFF#8 then s.cpu.read8 hr + 1 else s.cpu.read8 hr) ∧
      (t.cpu.read8 hr ≠ s.cpu.read8 hr ↔ s.cpu.read8 lr = 0xFF#8)

/-- Rule R106, as the harness performs it: preset the pair, step, read the pair back; every value, the wrap among them,
comes back plus 1 modulo 2^16, with a cost of 8. -/
def Obligations.PresetStepInspectReturnsTheIncrement : Prop :=
  ∀ (i : Instr) (v : Word) (s : State), s.busy = false →
    iFetch s.collab s.cpu.pc = .byte i.descriptor.opcode →
    ∃ s₁ s₂ w, transact (.write16 i.descriptor.pair v) s = .next (s₁, .done) ∧
      transact .step s₁ = .next (s₂, .stepped (.ok 8)) ∧
      transact (.read16 i.descriptor.pair) s₂ = .next (s₂, .word w) ∧
      w.toNat = (v.toNat + 1) % 65536 ∧ (v = 0xFFFF#16 → w = 0x0000#16)

/-- Rule R42: an instruction reads nothing of the collaborator and leaves it alone: with any other collaborator it does
the same to the block, and that collaborator too is as before. -/
def Obligations.InstructionsTouchNoDataMemory : Prop :=
  ∀ (i : Instr) (s : State) (m : Collab), ∃ t, exec i s = .next t ∧
    exec i (s.withCollab m) = .next (t.withCollab m) ∧ t.collab = s.collab

/-! ### Faults -/

/-- Rule R112: `OutOfBoundsFetch` arises when the fetch at `PC` finds no byte and in no other situation; it records the
address, code 2 (decision D11), and the step commits nothing (decision D10,
log 12). -/
def Obligations.OutOfBoundsFetchOnExhaustedStream : Prop :=
  ∀ s : State, s.busy = false →
    (iFetch s.collab s.cpu.pc = .outOfBounds →
      step s = .fault (.outOfBoundsFetch s.cpu.pc) ∧ (Fault.outOfBoundsFetch s.cpu.pc).code = 2 ∧
      transact .step s = .next (s, .stepped (.fault (.outOfBoundsFetch s.cpu.pc)))) ∧
    ∀ addr, step s = .fault (.outOfBoundsFetch addr) →
      iFetch s.collab s.cpu.pc = .outOfBounds ∧ addr = s.cpu.pc

/-- Rule R111 with decisions D9 and D10 (log 12): the fault of a byte without a handler records the byte and its address, code 1,
and neither a register nor the counter moves; the block has no fallback. -/
def Obligations.UnimplementedOpcodeCommitsNothing : Prop :=
  ∀ (s : State) (b : Byte), s.busy = false → iFetch s.collab s.cpu.pc = .byte b → decode b = .noHandler →
    step s = .fault (.unimplementedOpcode b s.cpu.pc) ∧ (Fault.unimplementedOpcode b s.cpu.pc).code = 1 ∧
    transact .step s = .next (s, .stepped (.fault (.unimplementedOpcode b s.cpu.pc)))

/-- Rules R110 and R115 (decisions D11, D13): a step faults in exactly two situations, one fault at a time, both at
`PC`; and nothing else can fault: no instruction, no register access, no reset. -/
def Obligations.StepFaultsInExactlyTwoSituations : Prop :=
  (∀ (s : State) (f : Fault), step s = .fault f ↔ s.busy = false ∧
    ((iFetch s.collab s.cpu.pc = .outOfBounds ∧ f = .outOfBoundsFetch s.cpu.pc) ∨
      ∃ b, iFetch s.collab s.cpu.pc = .byte b ∧ b ≠ 0x03#8 ∧ b ≠ 0x13#8 ∧ b ≠ 0x23#8 ∧ b ≠ 0x33#8 ∧
        f = .unimplementedOpcode b s.cpu.pc)) ∧
  (∀ (i : Instr) (s : State) (f : Fault), exec i s ≠ .fault f) ∧
  (∀ (x : Transaction) (s : State) (f : Fault), transact x s ≠ .fault f)

/-- Rules R114 and R116 (decisions D10, log 12, and D11): a fault is returned in place of `Ok`, the state after it is the state
before it, so the same call returns the same fault again; the result ports carry its code and information and a cost
of 0, and an `Ok` carries code 0 and its cost. -/
def Obligations.FaultsAreReturnedPreciselyAndRepeat : Prop :=
  (∀ (s : State) (f : Fault), step s = .fault f →
    transact .step s = .next (s, .stepped (.fault f)) ∧
    runEvents [.host .step, .host .step] s = .next s) ∧
  (∀ f : Fault, (StepResult.fault f).ports.stepFault.toNat = f.code ∧ (StepResult.fault f).ports.stepCost = 0 ∧
    (StepResult.fault f).ports.faultAddr = some f.addr) ∧
  (∀ (op : Byte) (addr : Word), (StepResult.fault (.unimplementedOpcode op addr)).ports.faultOpcode = some op) ∧
  (∀ (s t : State) (n : Nat), transact .step s = .next (t, .stepped (.ok n)) →
    (StepResult.ok n).ports.stepFault = 0 ∧ (StepResult.ok n).ports.stepCost.toNat = n)

/-- Rule R113: the wrap of a pair and the wrap of `PC` (decision D3, log 11) raise nothing, together or alone; and the finite counter of a fatal
build that would pass its width is refused, which is no fault (log 8; for a width below 64 that is the model's choice,
log 17). -/
def Obligations.WrapIsNoFault : Prop :=
  (∀ (i : Instr) (s : State), s.busy = false → iFetch s.collab s.cpu.pc = .byte i.descriptor.opcode →
    ∃ t, step s = .next t ∧
      (s.cpu.read16 i.descriptor.pair = 0xFFFF#16 → t.cpu.read16 i.descriptor.pair = 0x0000#16) ∧
      (s.cpu.pc = 0xFFFF#16 → t.cpu.pc = 0x0000#16)) ∧
  (∀ (b : Build) (s t : State), b.policy = .fatal → step s = .next t → 2 ^ b.cycWidth ≤ t.cpu.cyc →
    stepBuild b s = .refused .cycleCounterFull)

/-- Rules R9, R24 and R111 (decisions D7, D9; log 8): a build in scope steps, and answers every event, as the model
does, fault for fault, until its counter would pass its width; a build with a fallback handler is refused, whatever
step or event it is asked for. -/
def Obligations.BuildInScopeStepsAsTheModel : Prop :=
  (∀ (b : Build) (s : State), b.inScope = true →
    (∀ t, stepBuild b s = .next t ↔ step s = .next t ∧ t.cpu.cyc < 2 ^ b.cycWidth) ∧
    (∀ t, step s = .next t → t.cpu.cyc < 2 ^ 64 → stepBuild b s = .next t) ∧
    (∀ f, stepBuild b s = .fault f ↔ step s = .fault f) ∧
    ∀ e t r, actBuild b e s = .next (t, r) ↔ act e s = .next (t, r) ∧ t.cpu.cyc < 2 ^ b.cycWidth) ∧
  (∀ (b : Build) (s : State), b.policy = .fallback →
    stepBuild b s = .refused .fallbackBuild ∧ ∀ e, actBuild b e s = .refused .fallbackBuild)

/-! ### Runs and instances -/

/-- Rules R85, R88 and R89 (decision D3, log 11) over a run: after `n` steps that all returned `Ok`, the counter has grown by `8 * n` and `PC`
by `n` modulo 2^16, and `A`, `F` and the collaborator are as at the start. -/
def Obligations.RunChargesEightCyclesPerStep : Prop :=
  ∀ (n : Nat) (s t : State), run n s = .next t →
    t.cpu.cyc = s.cpu.cyc + 8 * n ∧ t.cpu.pc.toNat = (s.cpu.pc.toNat + n) % 65536 ∧
    t.cpu.a = s.cpu.a ∧ t.cpu.f = s.cpu.f ∧ t.collab = s.collab ∧ t.busy = s.busy

/-- Rules R85, R90, R100 and R106 over a run (`PC`'s advance is decision D3, log 11): where the stream holds the opcodes of a list of instructions at `PC`, the
run of its length ends normally, and every pair has gained, modulo 2^16, the number of its own instruction in the
list. In particular the same instruction `n` times adds `n mod 65536` and charges `8 * n` cycles. -/
def Obligations.RunAddsTheCountOfEachInstruction : Prop :=
  ∀ (is : List Instr) (s : State), s.busy = false → HoldsAt s.collab s.cpu.pc is →
    ∃ t, run is.length s = .next t ∧
      (∀ i : Instr, (t.cpu.read16 i.descriptor.pair).toNat =
        ((s.cpu.read16 i.descriptor.pair).toNat + is.count i) % 65536) ∧
      t.cpu.pc.toNat = (s.cpu.pc.toNat + is.length) % 65536 ∧ t.cpu.cyc = s.cpu.cyc + 8 * is.length ∧
      t.cpu.a = s.cpu.a ∧ t.cpu.f = s.cpu.f ∧ t.collab = s.collab ∧ t.busy = false

/-- Rule R117 with decisions D12 and D21: the first fault ends the run: every longer run from the same state ends in
that same fault. -/
def Obligations.FirstFaultEndsEveryLongerRun : Prop :=
  ∀ (n k : Nat) (s t : State) (f : Fault), run n s = .next t → step t = .fault f → run (n + 1 + k) s = .fault f

/-- Rule R27: instances are isolated. An event on one leaves every other as it was and does to its own just what it
does to a machine alone; so events on two instances can be taken in either order. -/
def Obligations.InstancesAreIsolated : Prop :=
  ∀ (n : Nat) (v : Vector State n) (j k : Fin n) (e e' : Event), j ≠ k →
    (∀ w r, actAt k e v = .next (w, r) → w[j] = v[j] ∧ act e v[k] = .next (w[k], r)) ∧
    (∀ w r w' r', actAt k e v = .next (w, r) → actAt j e' w = .next (w', r') →
      ∃ u, actAt j e' v = .next (u, r') ∧ actAt k e u = .next (w', r))
end

