-- ==== Sys2Proof/Laws/Memory.lean ====
section
/-! SUPPORT. The laws of the instruction stream: what a read sees after each change, and that every change keeps the
canonical form. -/

namespace Sys2Proof.Machine

@[simp] theorem Memory.get_nil (a : Nat) : Memory.get [] a = none := rfl

/-- A byte below every address of the stream is not in it. -/
theorem Memory.get_eq_none_of_lt {m : Memory} {a : Nat} (h : ∀ p ∈ m, a < p.1) : Memory.get m a = none := by
  induction m with
  | nil => rfl
  | cons p m ih =>
    have := h p (by simp)
    simp only [Memory.get]
    rw [if_neg (by omega)]
    exact ih fun q hq => h q (by simp [hq])

/-- Reading after a byte was placed: that byte at its address, and every other address as before. -/
theorem Memory.get_put (m : Memory) (a x : Nat) (b : Byte) :
    Memory.get (Memory.put a b m) x = if x = a then some b else Memory.get m x := by
  induction m with
  | nil =>
    by_cases hx : x = a
    · simp [Memory.put, Memory.get, hx]
    · simp [Memory.put, Memory.get, hx, Ne.symm hx]
  | cons p m ih =>
    obtain ⟨y, c⟩ := p
    simp only [Memory.put]
    by_cases hx : x = a
    · subst hx
      split
      · simp [Memory.get]
      · split
        · simp [Memory.get]
        · rw [Memory.get, if_neg (Ne.symm ‹_›), ih, if_pos rfl, if_pos rfl]
    · rw [if_neg hx] at ih ⊢
      have hx' : a ≠ x := Ne.symm hx
      split
      · rw [Memory.get, if_neg hx']
      · split
        · subst_vars; simp [Memory.get, hx']
        · simp only [Memory.get, ih]

theorem Memory.mem_put {m : Memory} {a : Nat} {b : Byte} {p : Host.Cell} (h : p ∈ Memory.put a b m) :
    p = (a, b) ∨ p ∈ m := by
  induction m with
  | nil => simpa [Memory.put] using h
  | cons q m ih =>
    obtain ⟨y, c⟩ := q
    simp only [Memory.put] at h
    split at h
    · simpa using h
    · split at h
      · rcases List.mem_cons.1 h with h | h
        · exact .inl h
        · exact .inr (by simp [h])
      · rcases List.mem_cons.1 h with h | h
        · exact .inr (by simp [h])
        · exact (ih h).imp_right (by simp +contextual)

/-- Placing a byte keeps the canonical form. -/
theorem Memory.wf_put {m : Memory} {a : Nat} {b : Byte} (ha : a < 2 ^ 16) (h : Memory.wf m) :
    Memory.wf (Memory.put a b m) := by
  refine ⟨?_, fun p hp => ?_⟩
  · obtain ⟨h, -⟩ := h
    induction m with
    | nil => simp [Memory.put]
    | cons q m ih =>
      obtain ⟨y, c⟩ := q
      obtain ⟨hq, hm⟩ := List.pairwise_cons.1 h
      simp only [Memory.put]
      split
      · refine List.pairwise_cons.2 ⟨fun p hp => ?_, h⟩
        rcases List.mem_cons.1 hp with rfl | hp
        · assumption
        · have := hq p hp; simp only at this ⊢; omega
      · split
        · subst_vars; exact List.pairwise_cons.2 ⟨hq, hm⟩
        · refine List.pairwise_cons.2 ⟨fun p hp => ?_, ih hm⟩
          rcases Memory.mem_put hp with rfl | hp
          · simp only; omega
          · exact hq p hp
  · rcases Memory.mem_put hp with rfl | hp
    · exact ha
    · exact h.2 p hp

theorem Memory.mem_drop {m : Memory} {a : Nat} {p : Host.Cell} (h : p ∈ Memory.drop a m) : p ∈ m := by
  induction m with
  | nil => exact h
  | cons q m ih =>
    obtain ⟨y, c⟩ := q
    simp only [Memory.drop] at h
    split at h
    · exact List.mem_cons_of_mem _ h
    · rcases List.mem_cons.1 h with h | h
      · simp [h]
      · exact List.mem_cons_of_mem _ (ih h)

/-- Removing a byte keeps the canonical form. -/
theorem Memory.wf_drop {m : Memory} (a : Nat) (h : Memory.wf m) : Memory.wf (Memory.drop a m) := by
  refine ⟨?_, fun p hp => h.2 p (Memory.mem_drop hp)⟩
  obtain ⟨h, -⟩ := h
  induction m with
  | nil => exact h
  | cons q m ih =>
    obtain ⟨y, c⟩ := q
    obtain ⟨hq, hm⟩ := List.pairwise_cons.1 h
    simp only [Memory.drop]
    split
    · exact hm
    · exact List.pairwise_cons.2 ⟨fun p hp => hq p (Memory.mem_drop hp), ih hm⟩

/-- Reading after a byte was removed from a canonical stream: nothing at its address, every other as before. -/
theorem Memory.get_drop {m : Memory} (a x : Nat) (h : Memory.wf m) :
    Memory.get (Memory.drop a m) x = if x = a then none else Memory.get m x := by
  obtain ⟨h, -⟩ := h
  induction m with
  | nil => simp [Memory.drop]
  | cons q m ih =>
    obtain ⟨y, c⟩ := q
    obtain ⟨hq, hm⟩ := List.pairwise_cons.1 h
    simp only [Memory.drop]
    split
    · rename_i hy
      by_cases hx : x = a
      · rw [if_pos hx, hx, ← hy]; exact Memory.get_eq_none_of_lt hq
      · rw [if_neg hx, Memory.get, if_neg (by omega)]
    · rename_i hy
      by_cases hx : x = a
      · rw [if_pos hx] at ih ⊢; rw [Memory.get, if_neg (by omega), ih hm]
      · rw [if_neg hx] at ih ⊢; simp only [Memory.get, ih hm]

theorem Memory.mem_fixture {base : Nat} {bytes : List Byte} {p : Host.Cell}
    (h : p ∈ Memory.fixture base bytes) : base ≤ p.1 ∧ p.1 < 2 ^ 16 := by
  induction bytes generalizing base with
  | nil => simp [Memory.fixture] at h
  | cons b bytes ih =>
    simp only [Memory.fixture] at h
    split at h
    · rcases List.mem_cons.1 h with rfl | h
      · exact ⟨Nat.le_refl _, ‹_›⟩
      · have := ih h; omega
    · simp at h

/-- The fixture of spec/92_eei_decisions.md D23 is in canonical form. -/
theorem Memory.wf_fixture (base : Nat) (bytes : List Byte) : Memory.wf (Memory.fixture base bytes) := by
  refine ⟨?_, fun p hp => (Memory.mem_fixture hp).2⟩
  induction bytes generalizing base with
  | nil => simp [Memory.fixture]
  | cons b bytes ih =>
    simp only [Memory.fixture]
    split
    · exact List.pairwise_cons.2 ⟨fun p hp => by have := Memory.mem_fixture hp; simp only; omega, ih _⟩
    · simp

/-- The fixture of D23: `S[a - base]` inside its range, no byte outside. -/
theorem Memory.get_fixture (base : Nat) (bytes : List Byte) (a : Nat) :
    Memory.get (Memory.fixture base bytes) a =
      if base ≤ a ∧ a < 2 ^ 16 then bytes[a - base]? else none := by
  induction bytes generalizing base with
  | nil => simp [Memory.fixture]
  | cons b bytes ih =>
    simp only [Memory.fixture]
    split
    · simp only [Memory.get, ih]
      by_cases hb : base = a
      · subst hb; rw [if_pos rfl, if_pos ⟨Nat.le_refl _, ‹_›⟩]; simp
      · rw [if_neg hb]
        by_cases hr : base ≤ a ∧ a < 2 ^ 16
        · rw [if_pos (by omega), if_pos hr, show a - base = (a - (base + 1)) + 1 by omega,
            List.getElem?_cons_succ]
        · rw [if_neg (by omega), if_neg hr]
    · rw [if_neg (by omega)]; rfl

/-- Every change the collaborator makes keeps the canonical form. -/
theorem collabAct_wf (e : CollabEvent) {m : Collab} (h : Memory.wf m.stream) : Memory.wf (collabAct e m).stream := by
  cases e with
  | put addr b => exact Memory.wf_put addr.isLt h
  | drop addr => exact Memory.wf_drop _ h
  | load base bytes => exact Memory.wf_fixture _ _
  | setSilent v => exact h

/-- The stream of a reset machine is in canonical form. -/
theorem Memory.wf_reset (r : ResetRegs) : Memory.wf (State.resetWith r).collab.stream := by
  simp [State.resetWith, Memory.wf]

/-- A fetch from an answering collaborator that holds a byte at the address. -/
theorem iFetch_eq_byte {m : Collab} {addr : Word} {b : Byte} (hs : m.silent = false)
    (hb : Memory.get m.stream addr.toNat = some b) : iFetch m addr = .byte b := by
  simp [iFetch, hs, hb]

end Sys2Proof.Machine
end

