-- ==== Sys2Proof/Laws/PerInstr.lean ====
section
/-! SUPPORT. What holds of every instruction as syntax, one lemma per constructor. -/

namespace Sys2Proof.Laws.OneByteOfItsDescriptor

/-- An instruction is well-formed, and its encoding is one byte: the opcode of its descriptor (rules R60, R83). -/
def Statement (i : Instr) : Prop :=
  i.wf = true ∧ encode i = [i.descriptor.opcode] ∧ (encode i).length = 1 + i.descriptor.operandBytes

theorem incBc : Statement .incBc := by unfold Statement; decide
theorem incDe : Statement .incDe := by unfold Statement; decide
theorem incHl : Statement .incHl := by unfold Statement; decide
theorem incSp : Statement .incSp := by unfold Statement; decide

end Sys2Proof.Laws.OneByteOfItsDescriptor
end

