-- ==== Sys2Proof/Laws/State.lean ====
section
/-! SUPPORT. One lemma per field per update of State, and the fields of a reset. -/

namespace Sys2Proof.Machine

@[simp] theorem State.withCpu_cpu (s : State) (c : Cpu) : (s.withCpu c).cpu = c := rfl
@[simp] theorem State.withCpu_busy (s : State) (c : Cpu) : (s.withCpu c).busy = s.busy := rfl
@[simp] theorem State.withCpu_collab (s : State) (c : Cpu) : (s.withCpu c).collab = s.collab := rfl
@[simp] theorem State.withBusy_cpu (s : State) (v : Bool) : (s.withBusy v).cpu = s.cpu := rfl
@[simp] theorem State.withBusy_busy (s : State) (v : Bool) : (s.withBusy v).busy = v := rfl
@[simp] theorem State.withBusy_collab (s : State) (v : Bool) : (s.withBusy v).collab = s.collab := rfl
@[simp] theorem State.withCollab_cpu (s : State) (m : Collab) : (s.withCollab m).cpu = s.cpu := rfl
@[simp] theorem State.withCollab_busy (s : State) (m : Collab) : (s.withCollab m).busy = s.busy := rfl
@[simp] theorem State.withCollab_collab (s : State) (m : Collab) : (s.withCollab m).collab = m := rfl
@[simp] theorem State.withStream_cpu (s : State) (m : Memory) : (s.withStream m).cpu = s.cpu := rfl
@[simp] theorem State.withStream_busy (s : State) (m : Memory) : (s.withStream m).busy = s.busy := rfl
@[simp] theorem State.withStream_stream (s : State) (m : Memory) : (s.withStream m).collab.stream = m := rfl
@[simp] theorem State.withStream_silent (s : State) (m : Memory) :
    (s.withStream m).collab.silent = s.collab.silent := rfl

/-- Writing back the context a state already holds changes nothing. -/
@[simp] theorem State.withCpu_self (s : State) : s.withCpu s.cpu = s := rfl

/-- Of two contexts written, the second stands. -/
@[simp] theorem State.withCpu_withCpu (s : State) (c c' : Cpu) : (s.withCpu c).withCpu c' = s.withCpu c' := rfl

/-- An idle state has its busy port low already. -/
theorem State.withBusy_eq_self {s : State} {v : Bool} (h : s.busy = v) : s.withBusy v = s := by
  cases s; cases h; rfl

@[simp] theorem State.resetWith_cpu (r : ResetRegs) : (State.resetWith r).cpu = Cpu.reset r := rfl
@[simp] theorem State.resetWith_busy (r : ResetRegs) : (State.resetWith r).busy = false := rfl
@[simp] theorem State.resetWith_stream (r : ResetRegs) : (State.resetWith r).collab.stream = [] := rfl
@[simp] theorem Cpu.reset_f (r : ResetRegs) : (Cpu.reset r).f = r.f := rfl
@[simp] theorem Cpu.reset_pc (r : ResetRegs) : (Cpu.reset r).pc = r.pc := rfl
@[simp] theorem Cpu.reset_cyc (r : ResetRegs) : (Cpu.reset r).cyc = 0 := rfl

end Sys2Proof.Machine
end

