-- ==== Sys2Proof/Laws/RegisterFile.lean ====
section
/-! SUPPORT. Halves and concatenation, what each register-file operation leaves alone, and the fields of the block
after a commit and after an INC16 handler. -/

namespace Sys2Proof.Machine

/-- The value of `{h, l}` as a number (rule R5). -/
theorem toNat_catBytes (h l : Byte) : (catBytes h l).toNat = h.toNat * 256 + l.toNat := by
  have append : (catBytes h l).toNat = h.toNat <<< 8 ||| l.toNat := BitVec.toNat_append h l
  rw [append, ← Nat.shiftLeft_add_eq_or_of_lt l.isLt, Nat.shiftLeft_eq]

theorem toNat_hiByte (v : Word) : (hiByte v).toNat = v.toNat / 256 := by
  have := v.isLt
  simp [hiByte, Nat.shiftRight_eq_div_pow]
  omega

theorem toNat_loByte (v : Word) : (loByte v).toNat = v.toNat % 256 := by
  simp [loByte]

@[simp] theorem hiByte_catBytes (h l : Byte) : hiByte (catBytes h l) = h := by
  have := h.isLt; have := l.isLt
  apply BitVec.eq_of_toNat_eq
  rw [toNat_hiByte, toNat_catBytes]
  omega

@[simp] theorem loByte_catBytes (h l : Byte) : loByte (catBytes h l) = l := by
  have := h.isLt; have := l.isLt
  apply BitVec.eq_of_toNat_eq
  rw [toNat_loByte, toNat_catBytes]
  omega

/-- The two halves recompose without loss. -/
@[simp] theorem catBytes_hiByte_loByte (v : Word) : catBytes (hiByte v) (loByte v) = v := by
  apply BitVec.eq_of_toNat_eq
  rw [toNat_catBytes, toNat_hiByte, toNat_loByte]
  omega

@[simp] theorem Cpu.write8_sp (r : Reg8) (v : Byte) (c : Cpu) : (c.write8 r v).sp = c.sp := by cases r <;> rfl
@[simp] theorem Cpu.write8_pc (r : Reg8) (v : Byte) (c : Cpu) : (c.write8 r v).pc = c.pc := by cases r <;> rfl
@[simp] theorem Cpu.write8_cyc (r : Reg8) (v : Byte) (c : Cpu) : (c.write8 r v).cyc = c.cyc := by cases r <;> rfl
@[simp] theorem Cpu.write16_a (p : Pair16) (v : Word) (c : Cpu) : (c.write16 p v).a = c.a := by cases p <;> rfl
@[simp] theorem Cpu.write16_f (p : Pair16) (v : Word) (c : Cpu) : (c.write16 p v).f = c.f := by cases p <;> rfl
@[simp] theorem Cpu.write16_pc (p : Pair16) (v : Word) (c : Cpu) : (c.write16 p v).pc = c.pc := by cases p <;> rfl
@[simp] theorem Cpu.write16_cyc (p : Pair16) (v : Word) (c : Cpu) : (c.write16 p v).cyc = c.cyc := by cases p <;> rfl

/-- `F` after a write to any register: masked if it is written, as before if it is not. -/
theorem Cpu.write8_f (r : Reg8) (v : Byte) (c : Cpu) :
    (c.write8 r v).f = if r = .f then storedFlags v else c.f := by cases r <;> rfl

/-- A write of one pair is not seen through another. -/
theorem Cpu.read16_write16_of_ne {p q : Pair16} (h : q ≠ p) (v : Word) (c : Cpu) :
    (c.write16 p v).read16 q = c.read16 q := by
  cases p <;> cases q <;> first | rfl | exact absurd rfl h

@[simp] theorem Cpu.writePc_pc (v : Word) (c : Cpu) : (c.writePc v).pc = v := rfl
@[simp] theorem Cpu.writePc_f (v : Word) (c : Cpu) : (c.writePc v).f = c.f := rfl
@[simp] theorem Cpu.writePc_cyc (v : Word) (c : Cpu) : (c.writePc v).cyc = c.cyc := rfl

@[simp] theorem Cpu.commit_pc (d : Descriptor) (c : Cpu) :
    (c.commit d).pc = c.pc + BitVec.ofNat 16 (1 + d.operandBytes) := rfl
@[simp] theorem Cpu.commit_cyc (d : Descriptor) (c : Cpu) : (c.commit d).cyc = c.cyc + d.cost := rfl
@[simp] theorem Cpu.commit_a (d : Descriptor) (c : Cpu) : (c.commit d).a = c.a := rfl
@[simp] theorem Cpu.commit_f (d : Descriptor) (c : Cpu) : (c.commit d).f = c.f := rfl
@[simp] theorem Cpu.commit_sp (d : Descriptor) (c : Cpu) : (c.commit d).sp = c.sp := rfl

/-- The commit changes neither a pair nor what is seen through one. -/
@[simp] theorem Cpu.read16_commit (d : Descriptor) (p : Pair16) (c : Cpu) : (c.commit d).read16 p = c.read16 p := by
  cases p <;> rfl

@[simp] theorem Cpu.inc16_a (d : Descriptor) (c : Cpu) : (c.inc16 d).a = c.a := by simp [Cpu.inc16]
@[simp] theorem Cpu.inc16_f (d : Descriptor) (c : Cpu) : (c.inc16 d).f = c.f := by simp [Cpu.inc16]
@[simp] theorem Cpu.inc16_pc (d : Descriptor) (c : Cpu) :
    (c.inc16 d).pc = c.pc + BitVec.ofNat 16 (1 + d.operandBytes) := by simp [Cpu.inc16]
@[simp] theorem Cpu.inc16_cyc (d : Descriptor) (c : Cpu) : (c.inc16 d).cyc = c.cyc + d.cost := by simp [Cpu.inc16]

/-- What an effect makes of a pair is read back through it after the whole handler. -/
theorem Cpu.read16_inc16 (d : Descriptor) (c : Cpu) :
    (c.inc16 d).read16 d.pair = applyEffect d.effect (c.read16 d.pair) := by
  simp only [Cpu.inc16, Cpu.read16_commit]
  cases d.pair <;> simp [Cpu.read16, Cpu.write16]

/-- The handler of one pair is not seen through another. -/
theorem Cpu.read16_inc16_of_ne {d : Descriptor} {q : Pair16} (h : q ≠ d.pair) (c : Cpu) :
    (c.inc16 d).read16 q = c.read16 q := by
  simp [Cpu.inc16, Cpu.read16_write16_of_ne h]

end Sys2Proof.Machine
end

