-- ==== Sys2Proof/Laws/Step.lean ====
section
/-! SUPPORT. What dispatch, execution and a step can do, said once each: later proofs cite these instead of unfolding
the pipeline. -/

namespace Sys2Proof.Machine

@[simp] theorem Instr.descriptor_operandBytes (i : Instr) : i.descriptor.operandBytes = 0 := by cases i <;> rfl
@[simp] theorem Instr.descriptor_cost (i : Instr) : i.descriptor.cost = 8 := by cases i <;> rfl
@[simp] theorem Instr.descriptor_effect (i : Instr) : i.descriptor.effect = .increment := by cases i <;> rfl

@[simp] theorem decode_descriptor_opcode (i : Instr) : decode i.descriptor.opcode = .handler i := by
  cases i <;> rfl

/-- The mux selects a handler for that handler's opcode byte alone. -/
theorem opcode_of_decode {b : Byte} {i : Instr} (h : decode b = .handler i) : b = i.descriptor.opcode := by
  unfold decode at h
  split at h
  · cases h; assumption
  · split at h
    · cases h; assumption
    · split at h
      · cases h; assumption
      · split at h
        · cases h; assumption
        · cases h

/-- Running an instruction always ends in a next state, in which only the block has moved. -/
theorem exec_eq (i : Instr) (s : State) : exec i s = .next (s.withCpu (s.cpu.inc16 i.descriptor)) := by
  cases i <;> rfl

@[simp] theorem mapNext_next {σ τ : Type} (g : σ → τ) (s : σ) : mapNext g (.next s) = .next (g s) := rfl
@[simp] theorem mapNext_fault {σ τ : Type} (g : σ → τ) (f : Fault) : mapNext g (.fault f) = .fault f := rfl
@[simp] theorem mapNext_refused {σ τ : Type} (g : σ → τ) (r : Refusal) : mapNext g (.refused r) = .refused r := rfl

/-- The stages of a step for a byte that has a handler. -/
theorem stepOn_handler {b : Byte} {i : Instr} (h : decode b = .handler i) (s : State) :
    stepOn (.byte b) s = .next (s.withCpu (s.cpu.inc16 i.descriptor), 8) := by
  simp [stepOn, h, fetchOperands, exec_eq]

/-- The stages of a step for a byte that has none. -/
theorem stepOn_noHandler {b : Byte} (h : decode b = .noHandler) (s : State) :
    stepOn (.byte b) s = .fault (.unimplementedOpcode b s.cpu.pc) := by
  simp [stepOn, h, raise]

/-- Everything the stages can do: which answers lead to a next state, and which one. -/
theorem stepOn_next {answer : FetchAnswer} {s t : State} {n : Nat} (h : stepOn answer s = .next (t, n)) :
    ∃ i : Instr, answer = .byte i.descriptor.opcode ∧ t = s.withCpu (s.cpu.inc16 i.descriptor) ∧ n = 8 := by
  cases answer with
  | noAnswer => cases h
  | outOfBounds => cases h
  | byte b =>
    cases hd : decode b with
    | noHandler => rw [stepOn_noHandler hd] at h; cases h
    | handler i =>
      rw [stepOn_handler hd] at h
      cases h
      exact ⟨i, by rw [opcode_of_decode hd], rfl, rfl⟩

/-- Everything the stages can end a step with: the two faults, each with its answer. -/
theorem stepOn_fault {answer : FetchAnswer} {s : State} {f : Fault} (h : stepOn answer s = .fault f) :
    (answer = .outOfBounds ∧ f = .outOfBoundsFetch s.cpu.pc) ∨
      ∃ b, answer = .byte b ∧ decode b = .noHandler ∧ f = .unimplementedOpcode b s.cpu.pc := by
  cases answer with
  | noAnswer => cases h
  | outOfBounds => cases h; exact .inl ⟨rfl, rfl⟩
  | byte b =>
    cases hd : decode b with
    | noHandler => rw [stepOn_noHandler hd] at h; cases h; exact .inr ⟨b, rfl, hd, rfl⟩
    | handler i => rw [stepOn_handler hd] at h; cases h

/-- A step call on an idle machine runs the stages on the collaborator's answer. -/
theorem stepReturning_idle {s : State} (h : s.busy = false) :
    stepReturning s = stepOn (iFetch s.collab s.cpu.pc) s := by
  simp [stepReturning, h]

/-- Everything a step can do: it ran one instruction, whose opcode byte was fetched at `PC`, on an idle machine. -/
theorem step_next {s t : State} (h : step s = .next t) :
    s.busy = false ∧ ∃ i : Instr, iFetch s.collab s.cpu.pc = .byte i.descriptor.opcode ∧
      t = s.withCpu (s.cpu.inc16 i.descriptor) := by
  unfold step at h
  cases hb : s.busy with
  | true => simp [stepReturning, hb] at h
  | false =>
    rw [stepReturning_idle hb] at h
    cases ho : stepOn (iFetch s.collab s.cpu.pc) s with
    | fault f => rw [ho] at h; cases h
    | refused r => rw [ho] at h; cases h
    | next p =>
      obtain ⟨u, n⟩ := p
      rw [ho] at h
      obtain ⟨i, ha, ht, -⟩ := stepOn_next ho
      cases h
      exact ⟨rfl, i, ha, ht⟩

/-- A step on an idle machine whose fetch at `PC` is answered with an implemented opcode. -/
theorem step_of_opcode {s : State} {i : Instr} (hb : s.busy = false)
    (ha : iFetch s.collab s.cpu.pc = .byte i.descriptor.opcode) :
    step s = .next (s.withCpu (s.cpu.inc16 i.descriptor)) := by
  rw [step, stepReturning_idle hb, ha, stepOn_handler (decode_descriptor_opcode i)]
  rfl

/-- Everything a build can make of an outcome that ends in a next state: the model's own, of a fatal build, with a
counter that fits. -/
theorem inBuild_next {σ : Type} {b : Build} {cyc : σ → Nat} {o : Host.Outcome σ Fault Refusal} {t : σ} :
    inBuild b cyc o = .next t ↔ b.policy = .fatal ∧ o = .next t ∧ cyc t < 2 ^ b.cycWidth := by
  unfold inBuild
  cases b.policy with
  | fallback => simp
  | fatal =>
    cases o with
    | fault f => simp [raise]
    | refused r => simp
    | next u =>
      simp only [true_and, Host.Outcome.next.injEq]
      split
      · simp only [Host.Outcome.next.injEq]
        exact ⟨fun h => ⟨h, h ▸ ‹_›⟩, And.left⟩
      · simp only [reduceCtorEq, false_iff, not_and]
        rintro rfl
        assumption

/-- A run of any host machine is its first step and the run of the rest. -/
theorem coreRun_succ (M : Host.Core) (n : Nat) (s : M.State) :
    M.run (n + 1) s =
      match M.step s with
      | .next t => M.run n t
      | .fault f => .fault f
      | .refused r => .refused r := rfl

/-- A run is its first step and the run of the rest. -/
theorem run_succ (n : Nat) (s : State) :
    run (n + 1) s =
      match step s with
      | .next t => run n t
      | .fault f => .fault f
      | .refused r => .refused r := by
  have first := coreRun_succ Sys2Proof.core n s
  rw [show Sys2Proof.core.step s = step s from rfl] at first
  refine first.trans ?_
  cases step s <;> rfl

@[simp] theorem run_zero (s : State) : run 0 s = .next s := rfl

/-- Everything a transaction of the host can do to the state, by transaction. -/
theorem transact_next {x : Transaction} {s t : State} {r : Reply} (h : transact x s = .next (t, r)) :
    (∃ regs, x = .reset regs ∧ t = hostReset regs s) ∨
    (x = .step ∧ s.busy = false ∧ (t = s ∨ ∃ i : Instr, t = s.withCpu (s.cpu.inc16 i.descriptor))) ∨
    (s.busy = false ∧ ∃ c : Cpu, t = s.withCpu c ∧
      (c = s.cpu ∨ (∃ q v, x = .write8 q v ∧ c = s.cpu.write8 q v) ∨ (∃ p v, x = .write16 p v ∧ c = s.cpu.write16 p v) ∨
        ∃ v, x = .writePc v ∧ c = s.cpu.writePc v)) := by
  cases hb : s.busy with
  | true =>
    cases x <;> simp [transact, hostAccess, stepReturning, returnStep, hb] at h
    case reset regs => exact .inl ⟨regs, rfl, h.1.symm⟩
  | false =>
    cases x <;> simp [transact, hostAccess, hb] at h
    case reset regs => exact .inl ⟨regs, rfl, h.1.symm⟩
    case step =>
      refine .inr (.inl ⟨rfl, rfl, ?_⟩)
      rw [stepReturning_idle hb] at h
      cases ho : stepOn (iFetch s.collab s.cpu.pc) s with
      | refused r => rw [ho] at h; cases h
      | fault f => rw [ho] at h; cases h; exact .inl rfl
      | next p =>
        obtain ⟨u, n⟩ := p
        rw [ho] at h; cases h
        obtain ⟨i, -, ht, -⟩ := stepOn_next ho
        exact .inr ⟨i, ht⟩
    case read8 q => exact .inr (.inr ⟨rfl, _, h.1.symm, .inl rfl⟩)
    case read16 p => exact .inr (.inr ⟨rfl, _, h.1.symm, .inl rfl⟩)
    case readPc => exact .inr (.inr ⟨rfl, _, h.1.symm, .inl rfl⟩)
    case readCycles => exact .inr (.inr ⟨rfl, _, h.1.symm, .inl rfl⟩)
    case write8 q v => exact .inr (.inr ⟨rfl, _, h.1.symm, .inr (.inl ⟨q, v, rfl, rfl⟩)⟩)
    case write16 p v => exact .inr (.inr ⟨rfl, _, h.1.symm, .inr (.inr (.inl ⟨p, v, rfl, rfl⟩))⟩)
    case writePc v => exact .inr (.inr ⟨rfl, _, h.1.symm, .inr (.inr (.inr ⟨v, rfl, rfl⟩))⟩)

/-- Everything the answer to an outstanding fetch can do to the state. -/
theorem fetchReply_next {answer : FetchAnswer} {s t : State} {r : Reply} (h : fetchReply answer s = .next (t, r)) :
    s.busy = true ∧ (t = s.withBusy false ∨
      ∃ i : Instr, t = (s.withBusy false).withCpu (s.cpu.inc16 i.descriptor)) := by
  cases hb : s.busy with
  | false => simp [fetchReply, hb] at h
  | true =>
    refine ⟨rfl, ?_⟩
    simp only [fetchReply, hb, if_true] at h
    cases ho : stepOn answer (s.withBusy false) with
    | refused r => rw [ho] at h; cases h
    | fault f => rw [ho] at h; cases h; exact .inl rfl
    | next p =>
      obtain ⟨u, n⟩ := p
      rw [ho] at h; cases h
      obtain ⟨i, -, ht, -⟩ := stepOn_next ho
      exact .inr ⟨i, ht⟩

end Sys2Proof.Machine
end

