-- ==== Sys2Proof/Tests/Slice0.lean ====
section
/-! SUPPORT. Tests on the spec's own vectors (spec/95_test_vectors.md), the ill-formed terms the checks refuse, the
words written out from the encodings, and a witness for the hypotheses of each statement. -/

open Sys2Proof Sys2Proof.Machine

namespace Sys2Proof.Tests

/-! ### Helpers -/

/-- The next state of an outcome, if it is one. -/
def nextOf {σ : Type} : Host.Outcome σ Fault Refusal → Option σ
  | .next s => some s
  | _ => none

/-- The fault of an outcome, if it is one. -/
def faultOf {σ : Type} : Host.Outcome σ Fault Refusal → Option Fault
  | .fault f => some f
  | _ => none

/-- The refusal of an outcome, if it is one. -/
def refusalOf {σ : Type} : Host.Outcome σ Fault Refusal → Option Refusal
  | .refused r => some r
  | _ => none

/-- A block in the order of the spec's vectors: A F, the three split pairs, SP PC CYC. -/
def block (a f : Byte) (bc de hl sp pc : Word) (cyc : Nat) : Cpu :=
  { a := a, f := f, b := hiByte bc, c := loByte bc, d := hiByte de, e := loByte de, h := hiByte hl, l := loByte hl
    sp := sp, pc := pc, cyc := cyc }

/-- An idle machine with `bytes` at `base`, the fixture of D23. -/
def machineAt (c : Cpu) (base : Nat) (bytes : List Byte) : State :=
  { cpu := c, busy := false, collab := { stream := Memory.fixture base bytes, silent := false } }

/-- The block after a step. -/
def blockAfter (s : State) : Option Cpu := (nextOf (step s)).map (·.cpu)

/-! ### Ill-formed terms the checks refuse -/

theorem test_wf_refuses_wrong_opcode : Descriptor.opcodeOk ⟨0x0B#8, 0, .bc, .increment, 8⟩ = false := by decide
theorem test_wf_refuses_operand_bytes : Descriptor.operandBytesOk ⟨0x03#8, 1, .bc, .increment, 8⟩ = false := by decide
theorem test_wf_refuses_wrong_cost : Descriptor.costOk ⟨0x03#8, 0, .bc, .increment, 4⟩ = false := by decide
theorem test_wf_refuses_wrong_pair : Descriptor.wf ⟨0x03#8, 0, .de, .increment, 8⟩ = false := by decide
theorem test_wf_refuses_reset_flags :
    ResetRegs.legalUnder 0xF0#8 { Config.resetRegs with f := 0x0F#8 } = false := by decide
theorem test_wf_refuses_unsorted_stream : ¬ Memory.wf [(1, 0x03#8), (0, 0x03#8)] := by decide
theorem test_wf_refuses_address_past_top : ¬ Memory.wf [(65536, 0x03#8)] := by decide

/-! ### Words written out from the encodings (rules R61 to R64, vectors of section 2.4) -/

theorem test_decode_incBc : decode 0b00000011#8 = .handler .incBc := by decide
theorem test_decode_incDe : decode 0b00010011#8 = .handler .incDe := by decide
theorem test_decode_incHl : decode 0b00100011#8 = .handler .incHl := by decide
theorem test_decode_incSp : decode 0b00110011#8 = .handler .incSp := by decide
theorem test_encode_bytes :
    [Instr.incBc, .incDe, .incHl, .incSp].flatMap encode = [0x03#8, 0x13#8, 0x23#8, 0x33#8] := by decide
theorem test_decode_neighbours :
    ([0x00#8, 0x02#8, 0x04#8, 0x12#8, 0x14#8, 0x22#8, 0x24#8, 0x32#8, 0x34#8, 0x0B#8, 0x1B#8, 0x2B#8, 0x3B#8].all
      fun b => decode b == .noHandler) = true := by decide
theorem test_decode_high_bits :
    ([0x43#8, 0x53#8, 0x63#8, 0x73#8, 0x83#8, 0x93#8, 0xA3#8, 0xB3#8, 0xC3#8, 0xD3#8, 0xE3#8, 0xF3#8, 0xCB#8, 0xFF#8].all
      fun b => decode b == .noHandler) = true := by decide
theorem test_table_word : decodeTableWord 8 0x23 = some .incHl ∧ decodeTableWord 8 0x24 = none := by decide

/-! ### One step each: vectors V20 to V25 and V40 -/

/-- V20. -/
theorem test_incBc_carry :
    blockAfter (machineAt (block 0x5A 0xB0 0x00FF 0x1111 0x2222 0x3333 0x0100 0) 0x0100 [0x03#8]) =
      some (block 0x5A 0xB0 0x0100 0x1111 0x2222 0x3333 0x0101 8) := by decide
/-- V24. -/
theorem test_incBc_wrap :
    blockAfter (machineAt (block 0x00 0x00 0xFFFF 0xFFFF 0xFFFF 0xFFFF 0x0100 0) 0x0100 [0x03#8]) =
      some (block 0x00 0x00 0x0000 0xFFFF 0xFFFF 0xFFFF 0x0101 8) := by decide
/-- V21. -/
theorem test_incDe_carry :
    blockAfter (machineAt (block 0x5A 0xB0 0x00FF 0x11FF 0x2222 0x3333 0x0100 0) 0x0100 [0x13#8]) =
      some (block 0x5A 0xB0 0x00FF 0x1200 0x2222 0x3333 0x0101 8) := by decide
/-- V40: `PC` passes the top of the address space. -/
theorem test_incDe_pc_wrap :
    blockAfter (machineAt (block 0x77 0x00 0x0000 0x12FF 0x0000 0x0000 0xFFFF 0) 0xFFFF [0x13#8]) =
      some (block 0x77 0x00 0x0000 0x1300 0x0000 0x0000 0x0000 8) := by decide
/-- V22. -/
theorem test_incHl_wrap :
    blockAfter (machineAt (block 0x5A 0xB0 0x00FF 0x1111 0xFFFF 0x3333 0x0100 0) 0x0100 [0x23#8]) =
      some (block 0x5A 0xB0 0x00FF 0x1111 0x0000 0x3333 0x0101 8) := by decide
/-- S3, at the third step of P2. -/
theorem test_incHl_no_carry :
    blockAfter (machineAt (block 0x01 0xB0 0x0100 0x0000 0x1234 0xFFFF 0xC002 116) 0xC002 [0x23#8]) =
      some (block 0x01 0xB0 0x0100 0x0000 0x1235 0xFFFF 0xC003 124) := by decide
/-- V23. -/
theorem test_incSp_wrap :
    blockAfter (machineAt (block 0x5A 0xB0 0x00FF 0x1111 0x2222 0xFFFF 0x0100 0) 0x0100 [0x33#8]) =
      some (block 0x5A 0xB0 0x00FF 0x1111 0x2222 0x0000 0x0101 8) := by decide
/-- V25. -/
theorem test_incSp_carry :
    blockAfter (machineAt (block 0xFF 0xF0 0xFFFF 0xFFFF 0xFFFF 0x00FF 0x0100 0) 0x0100 [0x33#8]) =
      some (block 0xFF 0xF0 0xFFFF 0xFFFF 0xFFFF 0x0100 0x0101 8) := by decide

/-! ### Faults, refusals and the host: vectors V30 to V36, V1, V2, V6 -/

/-- The start state of section 2.5. -/
def faultBlock (pc : Word) : Cpu := block 0x11 0x20 0x3344 0x5566 0x7788 0x99AA pc 40

/-- V31: the byte behind an unimplemented one is never fetched. -/
theorem test_fault_unimplemented :
    faultOf (step (machineAt (faultBlock 0x0100) 0x0100 [0xCB#8, 0x03#8])) =
      some (.unimplementedOpcode 0xCB 0x0100) := by decide
/-- V32. -/
theorem test_fault_past_end :
    faultOf (step (machineAt (faultBlock 0x0101) 0x0100 [0x03#8])) = some (.outOfBoundsFetch 0x0101) := by decide
/-- V34. -/
theorem test_fault_below_start :
    faultOf (step (machineAt (faultBlock 0x00FF) 0x0100 [0x03#8])) = some (.outOfBoundsFetch 0x00FF) := by decide
/-- V35: the unimplemented opcode at the very end of the stream, not the end of the stream. -/
theorem test_fault_priority :
    faultOf (step (machineAt (faultBlock 0x0100) 0x0100 [0xFF#8])) = some (.unimplementedOpcode 0xFF 0x0100) := by decide
/-- V30 and V36: the fault is returned, nothing has moved. -/
theorem test_fault_commits_nothing :
    nextOf (transact .step (machineAt (faultBlock 0x0100) 0x0100 [0x00#8])) =
      some (machineAt (faultBlock 0x0100) 0x0100 [0x00#8], .stepped (.fault (.unimplementedOpcode 0x00 0x0100))) := by
  decide
/-- Rule R134. -/
theorem test_stuck_fetch :
    refusalOf (step { machineAt (faultBlock 0x0100) 0x0100 [0x03#8] with collab := ⟨[(0x0100, 0x03#8)], true⟩ }) =
      some (.fetchUnanswered 0x0100) := by decide
/-- V1 and V2: a pair written, then its low half. -/
theorem test_write_pair_then_half :
    Cpu.read16 .bc (Cpu.write8 .c 0xFF (Cpu.write16 .bc 0x1234 (faultBlock 0))) = 0x12FF := by decide
/-- V6: SP has no halves. -/
theorem test_write_sp :
    Cpu.write16 .sp 0xBEEF (faultBlock 0) = { faultBlock 0 with sp := 0xBEEF } := by decide
/-- From reset, with nothing loaded, the first step finds no byte at `PC` (log 4). -/
theorem test_reset_has_no_program : faultOf (step State.reset) = some (.outOfBoundsFetch 0x0000) := by decide
/-- The instruction placed at reset is the one that runs. -/
theorem test_withFetchWord_runs :
    blockAfter (State.reset.withFetchWord 8 0x33) = some { State.reset.cpu with sp := 1, pc := 1, cyc := 8 } := by decide

/-! ### Witnesses for the hypotheses of the statements -/

/-- An idle machine about to run `INC BC` on `0x00FF`. -/
def idleIncBc : State := machineAt (block 0x5A 0x00 0x00FF 0x1111 0x2222 0x3333 0x0100 40) 0x0100 [0x03#8, 0x13#8, 0xCB#8]

/-- The machine `idleIncBc` steps to. -/
def afterIncBc : State := idleIncBc.withCpu (block 0x5A 0x00 0x0100 0x1111 0x2222 0x3333 0x0101 48)

theorem idleIncBc_step : step idleIncBc = .next afterIncBc := rfl

theorem idleIncBc_inv : idleIncBc.Inv := by
  refine ⟨Memory.wf_fixture _ _, ?_, by decide⟩
  simp [idleIncBc, machineAt, block]

theorem idleIncBc_fetch : iFetch idleIncBc.collab idleIncBc.cpu.pc = .byte Instr.incBc.descriptor.opcode := by decide

theorem witness_ResetMeetsTheInvariant : ({ Config.resetRegs with f := 0xB0#8 } : ResetRegs).legal = true := by
  unfold ResetRegs.legal ResetRegs.legalUnder Config.fWriteMask
  split <;> decide
theorem witness_StepKeepsTheInvariant : idleIncBc.Inv ∧ step idleIncBc = .next afterIncBc :=
  ⟨idleIncBc_inv, idleIncBc_step⟩
theorem witness_EveryEventSequenceKeepsTheInvariant :
    idleIncBc.Inv ∧ (∀ e ∈ [Event.request, .reply (.byte 0x03#8), .host .step], e.legal = true) ∧
      ∃ t, runEvents [Event.request, .reply (.byte 0x03#8), .host .step] idleIncBc = .next t :=
  ⟨idleIncBc_inv, by decide, _, rfl⟩
/-- A step, a reset, and an event that leaves the counter alone. -/
theorem witness_CounterMovesOnlyByStepOrReset :
    (nextOf (act (.host .step) idleIncBc)).map (·.1.cpu.cyc) = some 48 ∧
    (nextOf (act (.host (.reset Config.resetRegs)) idleIncBc)).map (·.1.cpu.cyc) = some 0 ∧
    (nextOf (act (.host (.writePc 0xFFFF)) idleIncBc)).map (·.1.cpu.cyc) = some 40 := by decide
/-- The idle hypothesis of the statements on `read8`, `write8`, `read16`, the round trip and the accesses. -/
theorem witness_idle : idleIncBc.busy = false := by decide
theorem witness_Write16DecomposesIntoHalves :
    idleIncBc.busy = false ∧ (0xAB#8).toNat = (0xABCD#16).toNat / 256 ∧ (0xCD#8).toNat = (0xABCD#16).toNat % 256 := by
  decide
theorem witness_PairAndHalvesShareStorage :
    (highReg .bc = some .b ∧ lowReg .bc = some .c) ∧ (highReg .de = some .d ∧ lowReg .de = some .e) ∧
    (highReg .hl = some .h ∧ lowReg .hl = some .l) := by decide
theorem witness_HostIsRefusedDuringAStep : (idleIncBc.withBusy true).busy = true := by decide
theorem witness_EveryOtherByteIsUnimplemented :
    (machineAt (faultBlock 0x0100) 0x0100 [0x04#8]).busy = false ∧
    iFetch (machineAt (faultBlock 0x0100) 0x0100 [0x04#8]).collab 0x0100 = .byte 0x04#8 ∧
    0x04#8 ≠ 0x03#8 ∧ 0x04#8 ≠ 0x13#8 ∧ 0x04#8 ≠ 0x23#8 ∧ 0x04#8 ≠ 0x33#8 := by decide
theorem witness_StepRunsTheDecodedInstruction :
    idleIncBc.busy = false ∧ idleIncBc.collab.silent = false ∧
    Memory.get idleIncBc.collab.stream idleIncBc.cpu.pc.toNat = some 0x03#8 ∧ decode 0x03#8 = .handler .incBc := by decide
/-- Each of the three answers of rule R80. -/
theorem witness_StepFetchesDispatchesExecutesCommits :
    (idleIncBc.busy = false ∧ iFetch idleIncBc.collab idleIncBc.cpu.pc = .byte 0x03#8 ∧
      decode 0x03#8 = .handler .incBc) ∧
    iFetch idleIncBc.collab 0x0102 = .byte 0xCB#8 ∧ decode 0xCB#8 = .noHandler ∧
    iFetch idleIncBc.collab 0x0103 = .outOfBounds := by decide
theorem witness_CostDependsOnTheOpcodeAlone : stepOn (.byte 0x03#8) idleIncBc = .next (afterIncBc, 8) := rfl
theorem witness_ReturnedCostIsTheCounterDifference :
    transact .step idleIncBc = .next (afterIncBc, .stepped (.ok 8)) := rfl
/-- A step at the top of the address space, and a fault. -/
theorem witness_ProgramCounterAdvancesByOneOrStays :
    (∃ t, step (machineAt (block 0 0 0 0 0 0 0xFFFF 0) 0xFFFF [0x13#8]) = .next t) ∧
    ∃ f, transact .step (machineAt (faultBlock 0) 0 []) =
      .next (machineAt (faultBlock 0) 0 [], .stepped (.fault f)) :=
  ⟨⟨_, rfl⟩, _, rfl⟩
theorem witness_SideEffectsOfAStepAreConfined :
    step idleIncBc = .next afterIncBc ∧
    ∃ f, transact .step (machineAt (faultBlock 0) 0 []) =
      .next (machineAt (faultBlock 0) 0 [], .stepped (.fault f)) :=
  ⟨rfl, _, rfl⟩
/-- Two collaborators that differ everywhere but at `PC`. -/
theorem witness_StepDependsOnBlockAndAnswerOnly :
    idleIncBc.busy = (machineAt idleIncBc.cpu 0x0100 [0x03#8, 0x00#8]).busy ∧
    idleIncBc.cpu = (machineAt idleIncBc.cpu 0x0100 [0x03#8, 0x00#8]).cpu ∧
    iFetch idleIncBc.collab idleIncBc.cpu.pc =
      iFetch (machineAt idleIncBc.cpu 0x0100 [0x03#8, 0x00#8]).collab idleIncBc.cpu.pc := by decide
theorem witness_NextFetchSeesAChangedStream :
    idleIncBc.busy = false ∧ idleIncBc.collab.silent = false ∧ Memory.wf idleIncBc.collab.stream := by decide
/-- Answered and unanswered. -/
theorem witness_AnsweredStepEnds :
    idleIncBc.busy = false ∧ iFetch idleIncBc.collab idleIncBc.cpu.pc ≠ .noAnswer ∧
    iFetch { idleIncBc.collab with silent := true } idleIncBc.cpu.pc = .noAnswer := by decide
/-- Rules R101 to R103: the corner cases of the three split pairs in one state. -/
theorem witness_IncCorners :
    (block 0 0 0xFFFF 0xFFFF 0xFFFF 0xFFFF 0 0).b = 0xFF#8 ∧ (block 0 0 0xFFFF 0xFFFF 0xFFFF 0xFFFF 0 0).c = 0xFF#8 ∧
    (block 0 0 0xFFFF 0xFFFF 0xFFFF 0xFFFF 0 0).d = 0xFF#8 ∧ (block 0 0 0xFFFF 0xFFFF 0xFFFF 0xFFFF 0 0).e = 0xFF#8 ∧
    (block 0 0 0xFFFF 0xFFFF 0xFFFF 0xFFFF 0 0).h = 0xFF#8 ∧ (block 0 0 0xFFFF 0xFFFF 0xFFFF 0xFFFF 0 0).l = 0xFF#8 ∧
    (block 0 0 0xFFFF 0xFFFF 0xFFFF 0xFFFF 0 0).sp = 0xFFFF#16 := by decide
theorem witness_IncrementCarriesFromLowToHighHalf :
    highReg Instr.incHl.descriptor.pair = some .h ∧ lowReg Instr.incHl.descriptor.pair = some .l := by decide
theorem witness_PresetStepInspectReturnsTheIncrement :
    idleIncBc.busy = false ∧ iFetch idleIncBc.collab idleIncBc.cpu.pc = .byte Instr.incBc.descriptor.opcode :=
  ⟨rfl, idleIncBc_fetch⟩
theorem witness_OutOfBoundsFetchOnExhaustedStream :
    (machineAt (faultBlock 0x0101) 0x0100 [0x03#8]).busy = false ∧
    iFetch (machineAt (faultBlock 0x0101) 0x0100 [0x03#8]).collab 0x0101 = .outOfBounds := by decide
theorem witness_UnimplementedOpcodeCommitsNothing :
    (machineAt (faultBlock 0x0100) 0x0100 [0x00#8]).busy = false ∧
    iFetch (machineAt (faultBlock 0x0100) 0x0100 [0x00#8]).collab 0x0100 = .byte 0x00#8 ∧
    decode 0x00#8 = .noHandler := by decide
/-- A fault, and an `Ok`. -/
theorem witness_FaultsAreReturnedPreciselyAndRepeat :
    faultOf (step (machineAt (faultBlock 0x0100) 0x0100 [0x00#8])) = some (.unimplementedOpcode 0x00 0x0100) ∧
    (nextOf (transact .step idleIncBc)).map (·.2) = some (.stepped (.ok 8)) := by decide
/-- A machine whose next step would take the counter to 2^64. -/
def fullCounter : State := machineAt (block 0 0 0 0 0 0 0x0100 (2 ^ 64 - 8)) 0x0100 [0x03#8]

/-- A pair and `PC` both at the top; and a build in scope whose counter the next step would fill. -/
theorem witness_WrapIsNoFault :
    ((machineAt (block 0 0 0xFFFF 0 0 0 0xFFFF 0) 0xFFFF [0x03#8]).busy = false ∧
      iFetch (machineAt (block 0 0 0xFFFF 0 0 0 0xFFFF 0) 0xFFFF [0x03#8]).collab 0xFFFF = .byte 0x03#8) ∧
    (⟨64, .fatal⟩ : Build).policy = .fatal ∧ ∃ t, step fullCounter = .next t ∧ 2 ^ 64 ≤ t.cpu.cyc :=
  ⟨by decide, rfl, _, rfl, by decide⟩
/-- A build in scope with a step that fits and an event; and a build with the fallback handler. -/
theorem witness_BuildInScopeStepsAsTheModel :
    Build.inScope ⟨64, .fatal⟩ = true ∧ step idleIncBc = .next afterIncBc ∧ afterIncBc.cpu.cyc < 2 ^ 64 ∧
    (∃ p, act (.host (.writePc 7)) idleIncBc = .next p) ∧ (⟨64, .fallback⟩ : Build).policy = .fallback :=
  ⟨by decide, rfl, by decide, ⟨_, rfl⟩, rfl⟩
/-- Rule R24: the step that would fill the counter is refused; the largest that fits is not. -/
theorem test_counter_width :
    refusalOf (stepBuild ⟨64, .fatal⟩ fullCounter) = some .cycleCounterFull ∧
    (nextOf (stepBuild ⟨65, .fatal⟩ fullCounter)).map (·.cpu.cyc) = some (2 ^ 64) := by decide
/-- Rules R9, R111: a build with a fallback handler is refused at an implemented opcode too. -/
theorem test_fallback_build :
    refusalOf (stepBuild ⟨64, .fallback⟩ idleIncBc) = some .fallbackBuild ∧
    refusalOf (actBuild ⟨64, .fallback⟩ (.host .readPc) idleIncBc) = some .fallbackBuild := by decide
theorem witness_RunChargesEightCyclesPerStep : SafeRun 2 idleIncBc := ⟨_, rfl⟩
theorem witness_RunAddsTheCountOfEachInstruction :
    idleIncBc.busy = false ∧ HoldsAt idleIncBc.collab idleIncBc.cpu.pc [.incBc, .incDe] :=
  ⟨rfl, by decide, by decide, trivial⟩
/-- A run of two steps whose third faults. -/
theorem witness_FirstFaultEndsEveryLongerRun :
    ∃ t, run 2 idleIncBc = .next t ∧ step t = .fault (.unimplementedOpcode 0xCB 0x0102) := ⟨_, rfl, rfl⟩
/-- Two instances, an event on each. -/
theorem witness_InstancesAreIsolated :
    (0 : Fin 2) ≠ 1 ∧ ∃ w r w' r', actAt 1 (.host .step) #v[idleIncBc, idleIncBc] = .next (w, r) ∧
      actAt 0 (.host (.writePc 7)) w = .next (w', r') := ⟨by decide, _, _, _, _, rfl, rfl⟩

end Sys2Proof.Tests
end

/-! SUPPORT. Host register accesses on an idle machine: each transaction in one equation, the split pairs case by case,
and what `write16` does to the halves (spec/10_state.md rules R14 to R18). -/

namespace Sys2Proof.Machine

/-- Between steps a register access has its meaning (rule R91). -/
theorem hostAccess_of_idle {s : State} (idle : s.busy = false) (c : Cpu) (r : Reply) :
    hostAccess s c r = .next (s.withCpu c, r) := by
  simp [hostAccess, idle]

theorem transact_read8_of_idle {s : State} (idle : s.busy = false) (r : Reg8) :
    transact (.read8 r) s = .next (s, .byte (s.cpu.read8 r)) :=
  hostAccess_of_idle idle s.cpu _

theorem transact_read16_of_idle {s : State} (idle : s.busy = false) (p : Pair16) :
    transact (.read16 p) s = .next (s, .word (s.cpu.read16 p)) :=
  hostAccess_of_idle idle s.cpu _

theorem transact_write16_of_idle {s : State} (idle : s.busy = false) (p : Pair16) (v : Word) :
    transact (.write16 p v) s = .next (s.withCpu (s.cpu.write16 p v), .done) :=
  hostAccess_of_idle idle (s.cpu.write16 p v) .done

/-- A byte is the high half of a word exactly when it is the word divided by 256. -/
theorem eq_hiByte_iff {hi : Byte} {v : Word} : hi = hiByte v ↔ hi.toNat = v.toNat / 256 := by
  rw [← toNat_hiByte, BitVec.toNat_inj]

/-- A byte is the low half of a word exactly when it is the word's remainder by 256. -/
theorem eq_loByte_iff {lo : Byte} {v : Word} : lo = loByte v ↔ lo.toNat = v.toNat % 256 := by
  rw [← toNat_loByte, BitVec.toNat_inj]

/-- The split pairs with their halves (rule R14); `SP` has none. -/
theorem splitPair_cases {p : Pair16} {hr lr : Reg8} (high : highReg p = some hr) (low : lowReg p = some lr) :
    (p = .bc ∧ hr = .b ∧ lr = .c) ∨ (p = .de ∧ hr = .d ∧ lr = .e) ∨ (p = .hl ∧ hr = .h ∧ lr = .l) := by
  cases p with
  | bc => cases high; cases low; exact .inl ⟨rfl, rfl, rfl⟩
  | de => cases high; cases low; exact .inr (.inl ⟨rfl, rfl, rfl⟩)
  | hl => cases high; cases low; exact .inr (.inr ⟨rfl, rfl, rfl⟩)
  | sp => cases high

/-- A write of a split pair is the writes of its two halves, in either order (rule R18). -/
theorem Cpu.write16_eq_write8_write8 {p : Pair16} {hr lr : Reg8} (high : highReg p = some hr)
    (low : lowReg p = some lr) (v : Word) (c : Cpu) :
    c.write16 p v = (c.write8 hr (hiByte v)).write8 lr (loByte v) ∧
    c.write16 p v = (c.write8 lr (loByte v)).write8 hr (hiByte v) := by
  obtain ⟨rfl, rfl, rfl⟩ | ⟨rfl, rfl, rfl⟩ | ⟨rfl, rfl, rfl⟩ := splitPair_cases high low
  · exact ⟨rfl, rfl⟩
  · exact ⟨rfl, rfl⟩
  · exact ⟨rfl, rfl⟩

end Sys2Proof.Machine

/-! SUPPORT. Several machines side by side (rule R27): what an event on one can do, and what it leaves alone. -/

namespace Sys2Proof.Machine

/-- Everything that passing the next state on can end in a next state from. -/
theorem mapNext_eq_next_iff {σ τ : Type} {g : σ → τ} {o : Host.Outcome σ Fault Refusal} {b : τ} :
    mapNext g o = .next b ↔ ∃ a, o = .next a ∧ g a = b := by
  cases o <;> simp

/-- An event on machine `k` of several that has a meaning is that event on its state alone, put back in its place. -/
theorem actAt_eq_next_iff {n : Nat} {k : Fin n} {e : Event} {v w : Vector State n} {r : Reply} :
    actAt k e v = .next (w, r) ↔ ∃ t, act e v[k] = .next (t, r) ∧ v.set k t = w := by
  simp [actAt, mapNext_eq_next_iff]

/-- An event on one machine leaves every other as it was. -/
theorem actAt_frame {n : Nat} {j k : Fin n} {e : Event} {v w : Vector State n} {r : Reply} (ne : j ≠ k)
    (h : actAt k e v = .next (w, r)) : w[j] = v[j] := by
  obtain ⟨t, -, rfl⟩ := actAt_eq_next_iff.mp h
  exact Vector.getElem_set_ne k.isLt j.isLt (Fin.val_ne_of_ne ne.symm)

/-- An event on one of several machines does to it what it does to a machine alone. -/
theorem actAt_own {n : Nat} {k : Fin n} {e : Event} {v w : Vector State n} {r : Reply}
    (h : actAt k e v = .next (w, r)) : act e v[k] = .next (w[k], r) := by
  obtain ⟨t, ht, rfl⟩ := actAt_eq_next_iff.mp h
  simpa using ht

/-- Events on two machines can be taken in the other order, with the same replies and the same result. -/
theorem actAt_comm {n : Nat} {j k : Fin n} {e e' : Event} {v w w' : Vector State n} {r r' : Reply} (ne : j ≠ k)
    (hk : actAt k e v = .next (w, r)) (hj : actAt j e' w = .next (w', r')) :
    ∃ u, actAt j e' v = .next (u, r') ∧ actAt k e u = .next (w', r) := by
  have hwj : w[j] = v[j] := actAt_frame ne hk
  obtain ⟨t, ht, rfl⟩ := actAt_eq_next_iff.mp hk
  obtain ⟨t', ht', rfl⟩ := actAt_eq_next_iff.mp hj
  rw [hwj] at ht'
  have hu : actAt j e' v = .next (v.set j t', r') := actAt_eq_next_iff.mpr ⟨t', ht', rfl⟩
  rw [← actAt_frame ne.symm hu] at ht
  exact ⟨v.set j t', hu, actAt_eq_next_iff.mpr ⟨t, ht, Vector.set_comm t' t (Fin.val_ne_of_ne ne)⟩⟩

end Sys2Proof.Machine

/-! The obligations on the architectural state (spec/10_state.md). -/

namespace Sys2Proof.Machine

/-- Settles O9: `hi` and `lo` are the halves of `v`, so each transaction is `write16` itself, and `write16` of a split
pair is the writes of its halves. -/
theorem write16DecomposesIntoHalves : Obligations.Write16DecomposesIntoHalves := by
  intro s v hi lo idle hhi hlo
  obtain rfl := eq_hiByte_iff.mpr hhi
  obtain rfl := eq_loByte_iff.mpr hlo
  have write := fun p => transact_write16_of_idle idle p v
  exact ⟨write .bc, write .de, write .hl, write .sp,
    fun _ _ _ high low => Cpu.write16_eq_write8_write8 high low v s.cpu⟩

/-- Settles O49: an event on one machine is an event on its place of the vector alone, and writes to two places
commute. -/
theorem instancesAreIsolated : Obligations.InstancesAreIsolated := by
  intro n v j k e e' ne
  exact ⟨fun _ _ h => ⟨actAt_frame ne h, actAt_own h⟩, fun _ _ _ _ => actAt_comm ne⟩

/-- Settles O6, register by register. -/
theorem read8ReturnsTheNamedRegister : Obligations.Read8ReturnsTheNamedRegister := by
  intro s idle
  have read := transact_read8_of_idle idle
  exact ⟨read .a, read .b, read .c, read .d, read .e, read .h, read .l, read .f⟩

/-- Settles O8: `read16` replies with the two bytes of a split pair joined, or with `SP` itself. -/
theorem read16ComposesHighByteFirst : Obligations.Read16ComposesHighByteFirst := by
  intro s p idle
  refine ⟨s.cpu.read16 p, transact_read16_of_idle idle p, ?bc, ?de, ?hl, ?sp⟩
  case bc => rintro rfl; exact toNat_catBytes s.cpu.b s.cpu.c
  case de => rintro rfl; exact toNat_catBytes s.cpu.d s.cpu.e
  case hl => rintro rfl; exact toNat_catBytes s.cpu.h s.cpu.l
  case sp => rintro rfl; rfl

end Sys2Proof.Machine

/-! SUPPORT. The dispatch mux as an equivalence for each of its answers (spec/30_encoding.md rules R63, R64, R82), the
encoding of an instruction, how the opcode bytes read as words of the opcode table, and a step on a byte without a
handler. -/

namespace Sys2Proof.Machine

/-- A byte selects a handler exactly when it is that handler's opcode (rule R82). -/
theorem decode_eq_handler_iff {b : Byte} {i : Instr} : decode b = .handler i ↔ b = i.descriptor.opcode :=
  ⟨opcode_of_decode, fun h => h ▸ decode_descriptor_opcode i⟩

/-- A byte has no handler exactly when it is no instruction's opcode (rule R64). -/
theorem decode_eq_noHandler_iff {b : Byte} : decode b = .noHandler ↔ ∀ i : Instr, b ≠ i.descriptor.opcode := by
  cases hd : decode b with
  | noHandler =>
    refine ⟨fun _ i hb => ?_, fun _ => rfl⟩
    rw [decode_eq_handler_iff.mpr hb] at hd
    cases hd
  | handler i => simpa using ⟨i, opcode_of_decode hd⟩

/-- A byte that is none of the four opcodes, written out, has no handler. -/
theorem decode_eq_noHandler_of_ne {b : Byte} (bc : b ≠ 0x03#8) (de : b ≠ 0x13#8) (hl : b ≠ 0x23#8)
    (sp : b ≠ 0x33#8) : decode b = .noHandler := by
  refine decode_eq_noHandler_iff.mpr fun i => ?_
  cases i with
  | incBc => exact bc
  | incDe => exact de
  | incHl => exact hl
  | incSp => exact sp

/-- Of the bytes in numeric order, those with a handler are the four opcodes. -/
theorem filter_decode_handler :
    ((List.range 256).filter fun n => !(decode (BitVec.ofNat 8 n) == .noHandler)) = [0x03, 0x13, 0x23, 0x33] := by
  decide

/-- An instruction is encoded as its opcode byte alone (rules R60, R65). -/
@[simp] theorem encode_eq (i : Instr) : encode i = [i.descriptor.opcode] := by
  cases i with
  | incBc => exact Laws.OneByteOfItsDescriptor.incBc.2.1
  | incDe => exact Laws.OneByteOfItsDescriptor.incDe.2.1
  | incHl => exact Laws.OneByteOfItsDescriptor.incHl.2.1
  | incSp => exact Laws.OneByteOfItsDescriptor.incSp.2.1

/-- An opcode byte reads as its instruction, and what follows it is left (rule R66). -/
@[simp] theorem decodeBytes_opcode_cons (i : Instr) (rest : List Byte) :
    decodeBytes (i.descriptor.opcode :: rest) = .ok (i, rest) := by
  simp [decodeBytes]

/-- A table word of 8 bits is one byte. -/
theorem tableBytes_toNat (b : Byte) : tableBytes 8 b.toNat = [b] := by
  have fits : b.toNat % 256 = b.toNat := Nat.mod_eq_of_lt b.isLt
  simp [tableBytes, fits]

/-- The opcode table's word for an instruction reads as that instruction. -/
theorem decodeTableWord_opcode (i : Instr) : decodeTableWord 8 i.descriptor.opcode.toNat = some i := by
  simp [decodeTableWord, tableBytes_toNat]

/-- A step on an idle machine whose fetch at `PC` is answered with a byte that has no handler (rule R64). -/
theorem step_of_noHandler {s : State} {b : Byte} (idle : s.busy = false)
    (fetched : iFetch s.collab s.cpu.pc = .byte b) (unhandled : decode b = .noHandler) :
    step s = .fault (.unimplementedOpcode b s.cpu.pc) := by
  rw [step, stepReturning_idle idle, fetched, stepOn_noHandler unhandled, mapNext_fault]

end Sys2Proof.Machine

/-! The obligations on the encoding and the opcode map (spec/30_encoding.md). -/

namespace Sys2Proof.Machine

/-- Settles O14: each byte of the map is the opcode of its row's descriptor, so the mux and the table word give that
row's instruction; the lengths and costs are the same in every row. -/
theorem opcodeMapRowsDecode : Obligations.OpcodeMapRowsDecode := by
  have mux := decode_descriptor_opcode
  have word := decodeTableWord_opcode
  exact ⟨mux .incBc, word .incBc, mux .incDe, word .incDe, mux .incHl, word .incHl, mux .incSp, word .incSp,
    rfl, rfl, rfl, rfl, fun i => ⟨Instr.descriptor_operandBytes i, by simp, Instr.descriptor_cost i⟩⟩

/-- Settles O15: the mux has four opcodes and no more, so a step on any other byte faults; of 256 bytes the four leave
252. -/
theorem everyOtherByteIsUnimplemented : Obligations.EveryOtherByteIsUnimplemented := by
  refine ⟨fun b bc de hl sp => ?fault, ?count⟩
  case fault =>
    have unhandled := decode_eq_noHandler_of_ne bc de hl sp
    exact ⟨unhandled, fun s idle fetched => step_of_noHandler idle fetched unhandled⟩
  case count =>
    have total := List.length_eq_length_filter_add (l := List.range 256)
      fun n => decode (BitVec.ofNat 8 n) == .noHandler
    simp only [filter_decode_handler, List.length_range, List.length_cons, List.length_nil] at total
    omega

end Sys2Proof.Machine

/-! SUPPORT. The dispatch mux is total with at most one handler for a byte, and the effect of the four handlers read as
arithmetic (spec/40_step_dispatch.md rules R82, R83). -/

namespace Sys2Proof.Machine

/-- A byte selects no handler, or one and no other (rule R82). -/
theorem decode_total (b : Byte) :
    decode b = .noHandler ∨ ∃ i, decode b = .handler i ∧ ∀ j, decode b = .handler j → j = i := by
  cases hd : decode b with
  | noHandler => exact .inl rfl
  | handler i => exact .inr ⟨i, rfl, fun j hj => (Dispatched.handler.inj hj).symm⟩

/-- The increment effect adds 1 modulo 2^16 (rule R83). -/
theorem toNat_applyEffect_increment (v : Word) : (applyEffect .increment v).toNat = (v.toNat + 1) % 65536 :=
  BitVec.toNat_add v 1

end Sys2Proof.Machine

/-! The obligations on the step and the dispatch (spec/40_step_dispatch.md). -/

namespace Sys2Proof.Machine

/-- Settles O16: the mux is an equivalence with the opcode byte and gives every byte one answer; of the examples 0x23 is
the opcode of `INC HL`, and 0x00 and 0x32 are none of the four opcodes. -/
theorem dispatchIsTotalAndMatchesTheWholeByte : Obligations.DispatchIsTotalAndMatchesTheWholeByte := by
  refine ⟨fun _ _ => decode_eq_handler_iff, decode_total, decode_descriptor_opcode .incHl, ?zero, ?oneBitOff⟩
  case zero => apply decode_eq_noHandler_of_ne <;> decide
  case oneBitOff => apply decode_eq_noHandler_of_ne <;> decide

/-- Settles O20: the four records are the model's constants, and their one effect is addition on 16-bit words. -/
theorem descriptorsHoldTheTableValues : Obligations.DescriptorsHoldTheTableValues :=
  ⟨rfl, rfl, rfl, rfl, toNat_applyEffect_increment⟩

/-- Settles O23: the stages end in a next state only through a handler, and every handler's step returns 8. -/
theorem costDependsOnTheOpcodeAlone : Obligations.CostDependsOnTheOpcodeAlone := by
  refine fun b => ⟨8, fun s t n h => ?_⟩
  obtain ⟨-, -, -, cost⟩ := stepOn_next h
  exact cost

end Sys2Proof.Machine

/-! SUPPORT. Streams of instructions as bytes (spec/30_encoding.md rules R60 to R66): what the byte-list decoder and the
disassembler give, as equivalences, and the mux as the field reading of rules R61 and R62. -/

namespace Sys2Proof.Machine

theorem Instr.wf_eq_true (i : Instr) : i.wf = true := by
  cases i with
  | incBc => exact Laws.OneByteOfItsDescriptor.incBc.1
  | incDe => exact Laws.OneByteOfItsDescriptor.incDe.1
  | incHl => exact Laws.OneByteOfItsDescriptor.incHl.1
  | incSp => exact Laws.OneByteOfItsDescriptor.incSp.1

/-- The opcode bytes of two instructions differ. -/
theorem opcode_inj {i j : Instr} : i.descriptor.opcode = j.descriptor.opcode ↔ i = j := by
  refine ⟨fun h => ?_, fun h => h ▸ rfl⟩
  have mux := decode_descriptor_opcode i
  rw [h, decode_descriptor_opcode] at mux
  exact (Dispatched.handler.inj mux).symm

theorem decodeBytes_cons_noHandler {b : Byte} (unhandled : decode b = .noHandler) (rest : List Byte) :
    decodeBytes (b :: rest) = .error (.noHandler b) := by
  simp [decodeBytes, unhandled]

/-- A list of bytes reads as an instruction and a rest exactly when it is the opcode byte and that rest. -/
theorem decodeBytes_eq_ok_iff {bs rest : List Byte} {i : Instr} :
    decodeBytes bs = .ok (i, rest) ↔ bs = i.descriptor.opcode :: rest := by
  refine ⟨fun h => ?_, fun h => h ▸ decodeBytes_opcode_cons i rest⟩
  cases bs with
  | nil => cases h
  | cons b bs =>
    cases hd : decode b with
    | noHandler => rw [decodeBytes_cons_noHandler hd] at h; cases h
    | handler j =>
      rw [opcode_of_decode hd, decodeBytes_opcode_cons] at h
      cases h
      rw [opcode_of_decode hd]

theorem disassemble_cons_noHandler {b : Byte} (unhandled : decode b = .noHandler) (rest : List Byte) :
    disassemble (b :: rest) = none := by
  simp [disassemble, unhandled]

@[simp] theorem disassemble_opcode_cons (i : Instr) (rest : List Byte) :
    disassemble (i.descriptor.opcode :: rest) = (disassemble rest).map (i :: ·) := by
  simp [disassemble]

/-- A stream that begins with a byte reads as the instructions of the rest after that byte's own. -/
theorem disassemble_cons_eq_some_iff {b : Byte} {rest : List Byte} {is : List Instr} :
    disassemble (b :: rest) = some is ↔
      ∃ i js, b = i.descriptor.opcode ∧ disassemble rest = some js ∧ is = i :: js := by
  cases hd : decode b with
  | noHandler =>
    have unlisted := decode_eq_noHandler_iff.mp hd
    simp [disassemble_cons_noHandler hd, unlisted]
  | handler i =>
    obtain rfl := opcode_of_decode hd
    simp [opcode_inj, eq_comm]

/-- A stream reads as a list of instructions exactly when it is the list's encodings joined. -/
theorem disassemble_eq_some_iff {bs : List Byte} {is : List Instr} :
    disassemble bs = some is ↔ bs = is.flatMap encode := by
  induction bs generalizing is with
  | nil => cases is <;> simp [disassemble]
  | cons b bs ih =>
    rw [disassemble_cons_eq_some_iff]
    cases is with
    | nil => simp
    | cons i is => simp [ih]

/-- A byte is format `OP1` of a selector exactly when its bits 7:6, 3:0 and 5:4 are `00`, `0011` and the selector
(rule R61). -/
theorem eq_op1_iff {b : Byte} {pp : BitVec 2} :
    b = 0b00#2 ++ pp ++ 0b0011#4 ↔
      b.extractLsb' 6 2 = 0b00#2 ∧ b.extractLsb' 0 4 = 0b0011#4 ∧ b.extractLsb' 4 2 = pp := by
  have value : (0b00#2 ++ pp ++ 0b0011#4).toNat = pp.toNat * 16 + 3 := by
    have low : (0b0011#4).toNat < 2 ^ 4 := by decide
    simp only [BitVec.toNat_append, ← Nat.shiftLeft_add_eq_or_of_lt low]
    simp [Nat.shiftLeft_eq]
  have hb := b.isLt
  have hpp := pp.isLt
  simp only [← BitVec.toNat_inj, value, BitVec.extractLsb'_toNat, Nat.shiftRight_eq_div_pow, BitVec.toNat_ofNat]
  omega

/-- The opcode of an instruction's descriptor is format `OP1` of its pair's selector (rules R61, R63). -/
theorem opcode_eq_encodeOp1 (i : Instr) : i.descriptor.opcode = encodeOp1 i.descriptor.pair :=
  (List.singleton_inj.mp (encode_eq i)).symm

end Sys2Proof.Machine

/-! SUPPORT. The invariant, operation by operation, then event by event: each change of the state that an event makes
keeps it. -/

namespace Sys2Proof.Machine

/-- The condition rule R29 puts on a reset record, as the invariant states it of the register. -/
theorem ResetRegs.legal_iff {r : ResetRegs} : r.legal = true ↔ r.f &&& Config.fWriteMask = r.f := beq_iff_eq

/-- What a host write stores in `F` the mask admits. -/
theorem storedFlags_and_mask (v : Byte) : storedFlags v &&& Config.fWriteMask = storedFlags v := by
  simp [storedFlags, BitVec.and_assoc]

theorem State.Inv.stream {s : State} (inv : s.Inv) : Memory.wf s.collab.stream := inv.1

theorem State.Inv.flags {s : State} (inv : s.Inv) : s.cpu.f &&& Config.fWriteMask = s.cpu.f := inv.2.1

theorem State.Inv.cycles {s : State} (inv : s.Inv) : 8 ∣ s.cpu.cyc := inv.2.2

theorem State.Inv.withCpu {s : State} (inv : s.Inv) {c : Cpu} (flags : c.f &&& Config.fWriteMask = c.f)
    (cycles : 8 ∣ c.cyc) : (s.withCpu c).Inv :=
  ⟨inv.stream, flags, cycles⟩

theorem State.Inv.withBusy {s : State} (inv : s.Inv) (v : Bool) : (s.withBusy v).Inv := inv

theorem State.Inv.withCollab {s : State} (inv : s.Inv) {m : Collab} (stream : Memory.wf m.stream) :
    (s.withCollab m).Inv :=
  ⟨stream, inv.2⟩

theorem State.Inv.hostReset {s : State} (inv : s.Inv) {r : ResetRegs} (legal : r.legal = true) :
    (hostReset r s).Inv :=
  (inv.withCpu (ResetRegs.legal_iff.mp legal) (Nat.dvd_zero 8)).withBusy false

/-- An INC16 instruction leaves `F` alone and adds 8 to the counter. -/
theorem State.Inv.inc16 {s : State} (inv : s.Inv) (i : Instr) : (s.withCpu (s.cpu.inc16 i.descriptor)).Inv := by
  refine inv.withCpu ?flags ?cycles
  case flags => simpa using inv.flags
  case cycles => simpa using inv.cycles

theorem State.Inv.write8 {s : State} (inv : s.Inv) (r : Reg8) (v : Byte) : (s.withCpu (s.cpu.write8 r v)).Inv := by
  refine inv.withCpu ?flags ?cycles
  case flags =>
    rw [Cpu.write8_f]
    split
    · exact storedFlags_and_mask v
    · exact inv.flags
  case cycles => simpa using inv.cycles

theorem State.Inv.write16 {s : State} (inv : s.Inv) (p : Pair16) (v : Word) :
    (s.withCpu (s.cpu.write16 p v)).Inv :=
  inv.withCpu (by simpa using inv.flags) (by simpa using inv.cycles)

/-- Every transaction of the host keeps the invariant, a reset when its record is legal. -/
theorem State.Inv.of_transact {x : Transaction} {s t : State} {r : Reply} (inv : s.Inv)
    (legal : (Event.host x).legal = true) (h : transact x s = .next (t, r)) : t.Inv := by
  rcases transact_next h with ⟨regs, rfl, rfl⟩ | ⟨-, -, rfl | ⟨i, rfl⟩⟩ |
    ⟨-, c, rfl, rfl | ⟨q, v, -, rfl⟩ | ⟨p, v, -, rfl⟩ | ⟨v, -, rfl⟩⟩
  · exact inv.hostReset legal
  · exact inv
  · exact inv.inc16 i
  · exact inv
  · exact inv.write8 q v
  · exact inv.write16 p v
  · exact inv.withCpu inv.flags inv.cycles

/-- Every event keeps the invariant, a reset when its record is legal. -/
theorem State.Inv.of_act {e : Event} {s t : State} {r : Reply} (inv : s.Inv) (legal : e.legal = true)
    (h : act e s = .next (t, r)) : t.Inv := by
  cases e with
  | host x => exact inv.of_transact legal h
  | collab e =>
    cases h
    exact inv.withCollab (collabAct_wf e inv.stream)
  | request =>
    obtain ⟨u, hu, ht⟩ := mapNext_eq_next_iff.mp h
    cases ht
    unfold stepRequest at hu
    split at hu
    · cases hu
    · cases hu; exact inv.withBusy true
  | reply answer =>
    obtain ⟨-, rfl | ⟨i, rfl⟩⟩ := fetchReply_next h
    · exact inv.withBusy false
    · exact (inv.withBusy false).inc16 i

/-- The first of a list of events, and the rest from where it leads. -/
theorem runEvents_cons_eq_next_iff {e : Event} {es : List Event} {s u : State} :
    runEvents (e :: es) s = .next u ↔ ∃ t r, act e s = .next (t, r) ∧ runEvents es t = .next u := by
  rw [runEvents]
  cases act e s with
  | next p => simp [Prod.ext_iff]
  | fault f => simp
  | refused r => simp

end Sys2Proof.Machine

/-! The obligations on the invariant and on the encoding of streams (spec/10_state.md, spec/30_encoding.md). -/

namespace Sys2Proof.Machine

/-- Settles O3: a step that answers a next state ran one INC16 instruction. -/
theorem stepKeepsTheInvariant : Obligations.StepKeepsTheInvariant := by
  intro s t inv h
  obtain ⟨-, i, -, rfl⟩ := step_next h
  exact inv.inc16 i

/-- Settles O4, by induction on the list of events: each event keeps the invariant. -/
theorem everyEventSequenceKeepsTheInvariant : Obligations.EveryEventSequenceKeepsTheInvariant := by
  intro es
  induction es with
  | nil =>
    intro s t inv _ h
    cases h
    exact inv
  | cons e es ih =>
    intro s u inv legal h
    obtain ⟨legalFirst, legalRest⟩ := List.forall_mem_cons.mp legal
    obtain ⟨t, r, first, rest⟩ := runEvents_cons_eq_next_iff.mp h
    exact ih t u (inv.of_act legalFirst first) legalRest rest

/-- Settles O19: the disassembler takes one opcode byte for each instruction. -/
theorem disassemblyInvertsEncodingOfStreams : Obligations.DisassemblyInvertsEncodingOfStreams :=
  fun _ _ => disassemble_eq_some_iff

/-- Settles O18: a list reads as an instruction and a rest exactly when it is the opcode byte and that rest. -/
theorem decodeBytesIsTheInverseOfEncode : Obligations.DecodeBytesIsTheInverseOfEncode := by
  intro i bs rest
  rw [encode_eq]
  exact ⟨Instr.wf_eq_true i, decodeBytes_eq_ok_iff⟩

/-- Settles O17: the mux matches the descriptor's opcode, which is format `OP1` of its pair's selector. -/
theorem dispatchAgreesWithOpcodeFields : Obligations.DispatchAgreesWithOpcodeFields := by
  intro b i
  rw [decode_eq_handler_iff, opcode_eq_encodeOp1]
  exact eq_op1_iff

/-- Settles O2: the stream is empty, the counter 0, and `F` the record's; the record of `State.reset` has `F` at 0. -/
theorem resetMeetsTheInvariant : Obligations.ResetMeetsTheInvariant := by
  have reset : ∀ r : ResetRegs, r.legal = true → (State.resetWith r).Inv := fun r legal =>
    ⟨Memory.wf_reset r, ResetRegs.legal_iff.mp legal, Nat.dvd_zero 8⟩
  exact ⟨reset, reset Config.resetRegs (ResetRegs.legal_iff.mpr BitVec.zero_and)⟩

end Sys2Proof.Machine

/-! SUPPORT. The register file after a write, register by register and half by half (spec/10_state.md rules R16 to
R21), and the host's accesses and step calls on an idle and on a busy machine. -/

namespace Sys2Proof.Machine

/-- What a register reads after a write: the value stored if it is the one written, its own value if it is not. -/
theorem Cpu.read8_write8 (r q : Reg8) (v : Byte) (c : Cpu) :
    (c.write8 r v).read8 q = if q = r then (if r = .f then storedFlags v else v) else c.read8 q := by
  cases r <;> cases q <;> rfl

theorem Cpu.read8_write8_self {r : Reg8} (opaqueFlags : r ≠ .f) (v : Byte) (c : Cpu) :
    (c.write8 r v).read8 r = v := by
  simp [Cpu.read8_write8, opaqueFlags]

theorem Cpu.read8_write8_of_ne {q r : Reg8} (ne : q ≠ r) (v : Byte) (c : Cpu) :
    (c.write8 r v).read8 q = c.read8 q := by
  simp [Cpu.read8_write8, ne]

@[simp] theorem Cpu.read16_write16_self (p : Pair16) (v : Word) (c : Cpu) : (c.write16 p v).read16 p = v := by
  cases p with
  | bc => exact catBytes_hiByte_loByte v
  | de => exact catBytes_hiByte_loByte v
  | hl => exact catBytes_hiByte_loByte v
  | sp => rfl

theorem Cpu.write16_sp_of_ne {p : Pair16} (ne : p ≠ .sp) (v : Word) (c : Cpu) : (c.write16 p v).sp = c.sp :=
  Cpu.read16_write16_of_ne ne.symm v c

/-- A pair has two halves or is `SP` (rules R11, R14). -/
theorem splitPair_or_sp (p : Pair16) : (∃ hr lr, highReg p = some hr ∧ lowReg p = some lr) ∨ p = .sp := by
  cases p with
  | bc => exact .inl ⟨.b, .c, rfl, rfl⟩
  | de => exact .inl ⟨.d, .e, rfl, rfl⟩
  | hl => exact .inl ⟨.h, .l, rfl, rfl⟩
  | sp => exact .inr rfl

/-- A register that is no half of a pair is as before when the pair is written. -/
theorem Cpu.read8_write16_of_not_half {p : Pair16} {q : Reg8} (notHigh : highReg p ≠ some q)
    (notLow : lowReg p ≠ some q) (v : Word) (c : Cpu) : (c.write16 p v).read8 q = c.read8 q := by
  obtain ⟨hr, lr, high, low⟩ | rfl := splitPair_or_sp p
  · have neHigh : q ≠ hr := fun h => notHigh (h ▸ high)
    have neLow : q ≠ lr := fun h => notLow (h ▸ low)
    obtain ⟨halves, -⟩ := Cpu.write16_eq_write8_write8 high low v c
    rw [halves, Cpu.read8_write8_of_ne neLow, Cpu.read8_write8_of_ne neHigh]
  · cases q <;> rfl

section Halves

variable {p : Pair16} {hr lr : Reg8} (high : highReg p = some hr) (low : lowReg p = some lr)
include high low

/-- The halves of a pair are two registers, neither of them `F`. -/
theorem splitPair_distinct : hr ≠ lr ∧ hr ≠ .f ∧ lr ≠ .f := by
  obtain ⟨-, rfl, rfl⟩ | ⟨-, rfl, rfl⟩ | ⟨-, rfl, rfl⟩ := splitPair_cases high low <;> decide

/-- A split pair is its two halves joined (rule R17). -/
theorem Cpu.read16_eq_catBytes (c : Cpu) : c.read16 p = catBytes (c.read8 hr) (c.read8 lr) := by
  obtain ⟨rfl, rfl, rfl⟩ | ⟨rfl, rfl, rfl⟩ | ⟨rfl, rfl, rfl⟩ := splitPair_cases high low
  · rfl
  · rfl
  · rfl

theorem Cpu.toNat_read16 (c : Cpu) : (c.read16 p).toNat = (c.read8 hr).toNat * 256 + (c.read8 lr).toNat := by
  rw [Cpu.read16_eq_catBytes high low, toNat_catBytes]

theorem Cpu.read8_high_write16 (v : Word) (c : Cpu) : (c.write16 p v).read8 hr = hiByte v := by
  obtain ⟨-, highNotF, -⟩ := splitPair_distinct high low
  obtain ⟨-, halves⟩ := Cpu.write16_eq_write8_write8 high low v c
  rw [halves, Cpu.read8_write8_self highNotF]

theorem Cpu.read8_low_write16 (v : Word) (c : Cpu) : (c.write16 p v).read8 lr = loByte v := by
  obtain ⟨-, -, lowNotF⟩ := splitPair_distinct high low
  obtain ⟨halves, -⟩ := Cpu.write16_eq_write8_write8 high low v c
  rw [halves, Cpu.read8_write8_self lowNotF]

end Halves

section Idle

variable {s : State} (idle : s.busy = false)
include idle

theorem transact_write8_of_idle (r : Reg8) (v : Byte) :
    transact (.write8 r v) s = .next (s.withCpu (s.cpu.write8 r v), .done) :=
  hostAccess_of_idle idle (s.cpu.write8 r v) .done

theorem transact_readPc_of_idle : transact .readPc s = .next (s, .word s.cpu.pc) :=
  hostAccess_of_idle idle s.cpu _

theorem transact_writePc_of_idle (v : Word) :
    transact (.writePc v) s = .next (s.withCpu { s.cpu with pc := v }, .done) :=
  hostAccess_of_idle idle (s.cpu.writePc v) .done

theorem transact_readCycles_of_idle : transact .readCycles s = .next (s, .cycles s.cpu.cyc) :=
  hostAccess_of_idle idle s.cpu _

end Idle

section Busy

variable {s : State} (busy : s.busy = true)
include busy

/-- During a step a register access has no meaning (rule R91, decision D19). -/
theorem hostAccess_of_busy (c : Cpu) (r : Reply) : hostAccess s c r = .refused .hostAccessDuringStep := by
  simp [hostAccess, busy]

theorem stepReturning_of_busy : stepReturning s = .refused .stepDuringStep := by
  simp [stepReturning, busy]

theorem step_of_busy : step s = .refused .stepDuringStep := by
  rw [step, stepReturning_of_busy busy, mapNext_refused]

theorem transact_step_of_busy : transact .step s = .refused .stepDuringStep := by
  rw [transact, stepReturning_of_busy busy, returnStep]

end Busy

/-- The free write mask is one of the two values the spec admits (rule R4, log 2). -/
theorem fWriteMask_cases : Config.fWriteMask = 0xFF#8 ∨ Config.fWriteMask = 0xF0#8 := by
  unfold Config.fWriteMask
  cases Config.fLowBitsStored with
  | true => exact .inl rfl
  | false => exact .inr rfl

end Sys2Proof.Machine

/-! The obligations on the register file and on the host's accesses (spec/10_state.md, spec/40_step_dispatch.md
section 7, spec/70_reset_and_hazards.md section 1). -/

namespace Sys2Proof.Machine

/-- Settles O10: the access that reads names the pair or register just written. -/
theorem writtenValuesReadBack : Obligations.WrittenValuesReadBack := by
  refine fun s idle => ⟨fun p v => ?pair, fun r v => ?register⟩
  case pair =>
    have read := transact_read16_of_idle (s := s.withCpu (s.cpu.write16 p v)) idle p
    rw [State.withCpu_cpu, Cpu.read16_write16_self] at read
    exact ⟨_, transact_write16_of_idle idle p v, read⟩
  case register =>
    have read := transact_read8_of_idle (s := s.withCpu (s.cpu.write8 r v)) idle r
    rw [State.withCpu_cpu, Cpu.read8_write8, if_pos rfl] at read
    exact ⟨_, transact_write8_of_idle idle r v, read⟩

/-- Settles O11: a split pair reads as its two halves, which are two registers other than `F`, and a write of the pair
is the writes of its halves. -/
theorem pairAndHalvesShareStorage : Obligations.PairAndHalvesShareStorage := by
  intro p hr lr c high low
  obtain ⟨distinct, highNotF, lowNotF⟩ := splitPair_distinct high low
  refine ⟨Cpu.toNat_read16 high low c, fun a => ?highWritten, fun b => ?lowWritten, fun v => ?pairWritten⟩
  case highWritten =>
    have other := Cpu.read8_write8_of_ne distinct.symm a c
    rw [Cpu.toNat_read16 high low, Cpu.read8_write8_self highNotF, other]
    exact ⟨rfl, rfl⟩
  case lowWritten =>
    have other := Cpu.read8_write8_of_ne distinct b c
    rw [Cpu.toNat_read16 high low, Cpu.read8_write8_self lowNotF, other]
    exact ⟨rfl, rfl⟩
  case pairWritten =>
    rw [Cpu.read8_high_write16 high low, Cpu.read8_low_write16 high low]
    exact ⟨toNat_hiByte v, toNat_loByte v⟩

/-- Settles O12: each access in its equation; a write of a register or pair is followed by the frame of the register
file's own operation. -/
theorem hostAccessesChangeWhatTheyName : Obligations.HostAccessesChangeWhatTheyName := by
  refine fun s idle => ⟨fun r => ⟨_, transact_read8_of_idle idle r⟩, fun p => ⟨_, transact_read16_of_idle idle p⟩,
    transact_readPc_of_idle idle, transact_readCycles_of_idle idle,
    fun v => ⟨transact_writePc_of_idle idle v, transact_readPc_of_idle idle⟩, fun r v => ?register, fun p v => ?pair⟩
  case register =>
    exact ⟨_, transact_write8_of_idle idle r v, rfl, idle, Cpu.write8_cyc r v s.cpu, Cpu.write8_pc r v s.cpu,
      Cpu.write8_sp r v s.cpu, fun q ne => Cpu.read8_write8_of_ne ne v s.cpu⟩
  case pair =>
    exact ⟨_, transact_write16_of_idle idle p v, rfl, idle, Cpu.write16_cyc p v s.cpu, Cpu.write16_pc p v s.cpu,
      fun ne => Cpu.write16_sp_of_ne ne v s.cpu,
      fun q notHigh notLow => Cpu.read8_write16_of_not_half notHigh notLow v s.cpu⟩

/-- Settles O1: the reset transaction is `hostReset`, which takes every field of the block from the record; the machine
it leaves is idle, so its next step fetches at the record's `PC`. -/
theorem resetInstallsItsRecordAndClearsTheCounter : Obligations.ResetInstallsItsRecordAndClearsTheCounter := by
  intro r s
  have nextStep := stepReturning_idle (s := hostReset r s) rfl
  exact ⟨hostReset r s, rfl, rfl, rfl, rfl, rfl, rfl, rfl, rfl, rfl, rfl, rfl, rfl, rfl, rfl, nextStep⟩

/-- Settles O7, register by register. -/
theorem write8SetsOneRegisterAndMasksFlags : Obligations.Write8SetsOneRegisterAndMasksFlags := by
  refine ⟨fWriteMask_cases, fun s v idle => ?_⟩
  have write := fun r => transact_write8_of_idle idle r v
  exact ⟨write .a, write .b, write .c, write .d, write .e, write .h, write .l, write .f⟩

/-- Settles O13: every access is a `hostAccess`, refused while the machine is busy, as a step call is; a reset asks
nothing of the busy port. -/
theorem hostIsRefusedDuringAStep : Obligations.HostIsRefusedDuringAStep := by
  intro s busy
  have access := hostAccess_of_busy busy
  exact ⟨fun _ => access _ _, fun _ _ => access _ _, fun _ => access _ _, fun _ _ => access _ _, access _ _,
    fun _ => access _ _, access _ _, transact_step_of_busy busy, step_of_busy busy,
    fun r => ⟨hostReset r s, rfl, rfl⟩⟩

end Sys2Proof.Machine

/-! SUPPORT. The block after an INC16 instruction, field by field and half by half (spec/41_inc16.md rules R100 to
R105). -/

namespace Sys2Proof.Machine

/-- Addition of 1 to a 16-bit word wraps (rule R5). -/
theorem toNat_add_one (v : Word) : (v + 1).toNat = (v.toNat + 1) % 65536 := toNat_applyEffect_increment v

/-- Addition of 1 to a byte wraps (rule R5). -/
theorem toNat_byte_add_one (v : Byte) : (v + 1).toNat = (v.toNat + 1) % 256 := BitVec.toNat_add v 1

/-- The whole block after an instruction: its pair plus 1, `PC` plus 1, the cost onto `CYC` (rule R100). -/
theorem Cpu.inc16_eq (i : Instr) (c : Cpu) :
    c.inc16 i.descriptor =
      { c.write16 i.descriptor.pair (c.read16 i.descriptor.pair + 1) with
        pc := c.pc + 1, cyc := c.cyc + i.descriptor.cost } := by
  cases i <;> rfl

theorem Cpu.inc16_descriptor_pc (i : Instr) (c : Cpu) : (c.inc16 i.descriptor).pc = c.pc + 1 := by
  simp

theorem Cpu.inc16_descriptor_cyc (i : Instr) (c : Cpu) : (c.inc16 i.descriptor).cyc = c.cyc + 8 := by
  simp

@[simp] theorem Cpu.read16_inc16_descriptor (i : Instr) (c : Cpu) :
    (c.inc16 i.descriptor).read16 i.descriptor.pair = c.read16 i.descriptor.pair + 1 := by
  rw [Cpu.read16_inc16, Instr.descriptor_effect, applyEffect]

/-- The instructions and their pairs correspond one to one. -/
theorem pair_inj {i j : Instr} : i.descriptor.pair = j.descriptor.pair ↔ i = j := by
  refine ⟨fun h => opcode_inj.mp ?_, fun h => h ▸ rfl⟩
  rw [opcode_eq_encodeOp1, opcode_eq_encodeOp1, h]

/-- The commit changes no 8-bit register. -/
@[simp] theorem Cpu.read8_commit (d : Descriptor) (r : Reg8) (c : Cpu) : (c.commit d).read8 r = c.read8 r := by
  cases r <;> rfl

/-- The handler of a pair changes no 8-bit register outside it. -/
theorem Cpu.read8_inc16_of_not_half {d : Descriptor} {r : Reg8} (notHigh : highReg d.pair ≠ some r)
    (notLow : lowReg d.pair ≠ some r) (c : Cpu) : (c.inc16 d).read8 r = c.read8 r := by
  rw [Cpu.inc16, Cpu.read8_commit, Cpu.read8_write16_of_not_half notHigh notLow]

/-- The low half of a pair plus 1 gains 1 (rule R105). -/
theorem loByte_catBytes_add_one (hi lo : Byte) : loByte (catBytes hi lo + 1) = lo + 1 := by
  apply BitVec.eq_of_toNat_eq
  rw [toNat_loByte, toNat_add_one, toNat_catBytes, toNat_byte_add_one]
  omega

/-- The high half of a pair plus 1 takes the carry out of the low half (rule R105). -/
theorem hiByte_catBytes_add_one (hi lo : Byte) :
    hiByte (catBytes hi lo + 1) = if lo = 0xFF#8 then hi + 1 else hi := by
  have carries : lo = 0xFF#8 ↔ lo.toNat = 255 := BitVec.toNat_inj.symm
  have hlo := lo.isLt
  have hhi := hi.isLt
  apply BitVec.eq_of_toNat_eq
  rw [toNat_hiByte, toNat_add_one, toNat_catBytes]
  by_cases full : lo = 0xFF#8
  · rw [if_pos full, toNat_byte_add_one]
    have := carries.mp full
    omega
  · rw [if_neg full]
    have := mt carries.mpr full
    omega

theorem Cpu.read8_low_inc16 {i : Instr} {hr lr : Reg8} (high : highReg i.descriptor.pair = some hr)
    (low : lowReg i.descriptor.pair = some lr) (c : Cpu) : (c.inc16 i.descriptor).read8 lr = c.read8 lr + 1 := by
  rw [Cpu.inc16, Cpu.read8_commit, Cpu.read8_low_write16 high low, Instr.descriptor_effect, applyEffect,
    Cpu.read16_eq_catBytes high low, loByte_catBytes_add_one]

theorem Cpu.read8_high_inc16 {i : Instr} {hr lr : Reg8} (high : highReg i.descriptor.pair = some hr)
    (low : lowReg i.descriptor.pair = some lr) (c : Cpu) :
    (c.inc16 i.descriptor).read8 hr = if c.read8 lr = 0xFF#8 then c.read8 hr + 1 else c.read8 hr := by
  rw [Cpu.inc16, Cpu.read8_commit, Cpu.read8_high_write16 high low, Instr.descriptor_effect, applyEffect,
    Cpu.read16_eq_catBytes high low, hiByte_catBytes_add_one]

/-- The halves of a pair plus 1 as rules R101 to R103 state them: their value, the wrap and the carry. -/
theorem halves_add_one (hi lo : Byte) :
    (hiByte (catBytes hi lo + 1)).toNat * 256 + (loByte (catBytes hi lo + 1)).toNat =
      (hi.toNat * 256 + lo.toNat + 1) % 65536 ∧
    (hi = 0xFF#8 → lo = 0xFF#8 →
      hiByte (catBytes hi lo + 1) = 0x00#8 ∧ loByte (catBytes hi lo + 1) = 0x00#8) ∧
    (lo = 0xFF#8 → hiByte (catBytes hi lo + 1) = hi + 1 ∧ loByte (catBytes hi lo + 1) = 0x00#8) := by
  refine ⟨?value, ?wrap, ?carry⟩
  case value => rw [← toNat_catBytes, catBytes_hiByte_loByte, toNat_add_one, toNat_catBytes]
  case wrap => rintro rfl rfl; exact ⟨rfl, rfl⟩
  case carry =>
    rintro rfl
    exact ⟨by rw [hiByte_catBytes_add_one, if_pos rfl], loByte_catBytes_add_one hi 0xFF#8⟩

end Sys2Proof.Machine

/-! SUPPORT. The step by the answer at `PC`, as an equation for each answer and an equivalence for each way it can end;
and the step as a transaction (spec/40_step_dispatch.md rules R80, R86; spec/60_exceptions.md rules R110 to R116). -/

namespace Sys2Proof.Machine

theorem mapNext_eq_fault_iff {σ τ : Type} {g : σ → τ} {o : Host.Outcome σ Fault Refusal} {f : Fault} :
    mapNext g o = .fault f ↔ o = .fault f := by
  cases o <;> simp

section Answers

variable {s : State} (idle : s.busy = false)
include idle

theorem stepReturning_of_opcode {i : Instr} (fetched : iFetch s.collab s.cpu.pc = .byte i.descriptor.opcode) :
    stepReturning s = .next (s.withCpu (s.cpu.inc16 i.descriptor), 8) := by
  rw [stepReturning_idle idle, fetched, stepOn_handler (decode_descriptor_opcode i)]

/-- With an instruction's opcode at `PC` a step is that instruction's execution. -/
theorem step_eq_exec {i : Instr} (fetched : iFetch s.collab s.cpu.pc = .byte i.descriptor.opcode) :
    step s = exec i s := by
  rw [step_of_opcode idle fetched, exec_eq]

theorem step_of_outOfBounds (exhausted : iFetch s.collab s.cpu.pc = .outOfBounds) :
    step s = .fault (.outOfBoundsFetch s.cpu.pc) := by
  rw [step, stepReturning_idle idle, exhausted, stepOn, raise, mapNext_fault]

theorem step_of_noAnswer (unanswered : iFetch s.collab s.cpu.pc = .noAnswer) :
    step s = .refused (.fetchUnanswered s.cpu.pc) := by
  rw [step, stepReturning_idle idle, unanswered, stepOn, mapNext_refused]

end Answers

/-- A step returns `Ok(n)` exactly when an idle machine fetched an instruction's opcode, and `n` is 8. -/
theorem stepReturning_eq_next_iff {s t : State} {n : Nat} :
    stepReturning s = .next (t, n) ↔
      s.busy = false ∧ ∃ i : Instr, iFetch s.collab s.cpu.pc = .byte i.descriptor.opcode ∧
        t = s.withCpu (s.cpu.inc16 i.descriptor) ∧ n = 8 := by
  constructor
  · intro h
    cases hb : s.busy with
    | true => rw [stepReturning_of_busy hb] at h; cases h
    | false => exact ⟨rfl, stepOn_next (stepReturning_idle hb ▸ h)⟩
  · rintro ⟨idle, i, fetched, rfl, rfl⟩
    exact stepReturning_of_opcode idle fetched

/-- A step faults exactly when an idle machine's fetch at `PC` found no byte, or one without a handler (rule R110). -/
theorem step_eq_fault_iff {s : State} {f : Fault} :
    step s = .fault f ↔
      s.busy = false ∧ ((iFetch s.collab s.cpu.pc = .outOfBounds ∧ f = .outOfBoundsFetch s.cpu.pc) ∨
        ∃ b, iFetch s.collab s.cpu.pc = .byte b ∧ decode b = .noHandler ∧ f = .unimplementedOpcode b s.cpu.pc) := by
  constructor
  · intro h
    cases hb : s.busy with
    | true => rw [step_of_busy hb] at h; cases h
    | false =>
      rw [step, mapNext_eq_fault_iff, stepReturning_idle hb] at h
      exact ⟨rfl, stepOn_fault h⟩
  · rintro ⟨idle, ⟨exhausted, rfl⟩ | ⟨b, fetched, unhandled, rfl⟩⟩
    · exact step_of_outOfBounds idle exhausted
    · exact step_of_noHandler idle fetched unhandled

theorem returnStep_eq_ok_iff {s t : State} {n : Nat} {o : Host.Outcome (State × Nat) Fault Refusal} :
    returnStep s o = .next (t, .stepped (.ok n)) ↔ o = .next (t, n) := by
  cases o <;> simp [returnStep, Prod.ext_iff]

theorem returnStep_eq_fault_iff {s t : State} {f : Fault} {o : Host.Outcome (State × Nat) Fault Refusal} :
    returnStep s o = .next (t, .stepped (.fault f)) ↔ t = s ∧ o = .fault f := by
  cases o <;> simp [returnStep, eq_comm]

/-- The step transaction returns `Ok(n)` exactly when the step does. -/
theorem transact_step_eq_ok_iff {s t : State} {n : Nat} :
    transact .step s = .next (t, .stepped (.ok n)) ↔ stepReturning s = .next (t, n) :=
  returnStep_eq_ok_iff

/-- The step transaction returns a fault exactly when the step ends in it, and then the state is the one before
(rule R116). -/
theorem transact_step_eq_fault_iff {s t : State} {f : Fault} :
    transact .step s = .next (t, .stepped (.fault f)) ↔ t = s ∧ step s = .fault f := by
  rw [step, mapNext_eq_fault_iff]
  exact returnStep_eq_fault_iff

/-- With an instruction's opcode at `PC` the step transaction returns `Ok(8)` and the instruction's next state. -/
theorem transact_step_of_opcode {s : State} {i : Instr} (idle : s.busy = false)
    (fetched : iFetch s.collab s.cpu.pc = .byte i.descriptor.opcode) :
    transact .step s = .next (s.withCpu (s.cpu.inc16 i.descriptor), .stepped (.ok 8)) :=
  transact_step_eq_ok_iff.mpr (stepReturning_of_opcode idle fetched)

/-- A fault of a step is what the transaction returns, in the state it was called in. -/
theorem transact_step_of_fault {s : State} {f : Fault} (h : step s = .fault f) :
    transact .step s = .next (s, .stepped (.fault f)) :=
  transact_step_eq_fault_iff.mpr ⟨rfl, h⟩

/-- Everything the stages of a step can return and leave behind: a fault and the state as it was, or `Ok(8)` and an
instruction's work. -/
theorem returnStep_stepOn_next {answer : FetchAnswer} {s t : State} {r : Reply}
    (h : returnStep s (stepOn answer s) = .next (t, r)) :
    t = s ∨ ∃ i : Instr, t = s.withCpu (s.cpu.inc16 i.descriptor) ∧ r = .stepped (.ok 8) := by
  cases ho : stepOn answer s with
  | refused _ => rw [ho] at h; cases h
  | fault f => rw [ho] at h; cases h; exact .inl rfl
  | next p =>
    obtain ⟨u, n⟩ := p
    rw [ho] at h
    obtain ⟨i, -, ht, rfl⟩ := stepOn_next ho
    cases h
    exact .inr ⟨i, ht, rfl⟩

/-- A byte has no handler exactly when it is none of the four opcodes, written out. -/
theorem decode_eq_noHandler_iff_ne {b : Byte} :
    decode b = .noHandler ↔ b ≠ 0x03#8 ∧ b ≠ 0x13#8 ∧ b ≠ 0x23#8 ∧ b ≠ 0x33#8 := by
  refine ⟨fun h => ?_, fun ⟨bc, de, hl, sp⟩ => decode_eq_noHandler_of_ne bc de hl sp⟩
  have ne := decode_eq_noHandler_iff.mp h
  exact ⟨ne .incBc, ne .incDe, ne .incHl, ne .incSp⟩

/-- No transaction of the host answers a fault: a step's fault is its reply (rule R115). -/
theorem transact_ne_fault (x : Transaction) (s : State) (f : Fault) : transact x s ≠ .fault f := by
  have access : ∀ c r, hostAccess s c r ≠ .fault f := by
    intro c r
    unfold hostAccess
    split <;> simp
  cases x with
  | reset r => simp [transact]
  | step => cases ho : stepReturning s <;> simp [transact, returnStep, ho]
  | read8 r => exact access _ _
  | write8 r v => exact access _ _
  | read16 p => exact access _ _
  | write16 p v => exact access _ _
  | readPc => exact access _ _
  | writePc v => exact access _ _
  | readCycles => exact access _ _

/-- The answer to an outstanding fetch runs the stages on the machine gone idle (rule R92). -/
theorem fetchReply_of_busy {s : State} (busy : s.busy = true) (answer : FetchAnswer) :
    fetchReply answer s = returnStep (s.withBusy false) (stepOn answer (s.withBusy false)) := by
  simp [fetchReply, busy]

theorem stepRequest_of_idle {s : State} (idle : s.busy = false) : stepRequest s = .next (s.withBusy true) := by
  simp [stepRequest, idle]

theorem stepRequest_next {s t : State} (h : stepRequest s = .next t) : t = s.withBusy true := by
  unfold stepRequest at h
  split at h
  · cases h
  · cases h; rfl

@[simp] theorem State.withBusy_withBusy (s : State) (v w : Bool) : (s.withBusy v).withBusy w = s.withBusy w := rfl

/-- A fetch from an answering collaborator that holds no byte at the address. -/
theorem iFetch_eq_outOfBounds {m : Collab} {addr : Word} (answers : m.silent = false)
    (absent : Memory.get m.stream addr.toNat = none) : iFetch m addr = .outOfBounds := by
  simp [iFetch, answers, absent]

/-- What `withFetchWord` placed is what the fetch at `PC` finds (log 4). -/
theorem iFetch_withFetchWord (s : State) (b : Byte) :
    iFetch (s.withFetchWord 8 b.toNat).collab s.cpu.pc = .byte b := by
  refine iFetch_eq_byte rfl ?_
  simp [State.withFetchWord, placeAtPc, Memory.get_put, tableBytes_toNat]

end Sys2Proof.Machine

/-! The obligations on the step and its faults (spec/40_step_dispatch.md, spec/60_exceptions.md, spec/20_memory.md
section 7, spec/70_reset_and_hazards.md). -/

namespace Sys2Proof.Machine

/-- Settles O5: of the events that leave the counter elsewhere, a reset clears it, and a step, atomic or answered,
returned `Ok(8)` after an instruction that added 8. -/
theorem counterMovesOnlyByStepOrReset : Obligations.CounterMovesOnlyByStepOrReset := by
  intro e s t r h
  cases e with
  | collab e => cases h; exact .inl rfl
  | request =>
    obtain ⟨u, hu, ht⟩ := mapNext_eq_next_iff.mp h
    cases ht
    rw [stepRequest_next hu]
    exact .inl rfl
  | reply answer =>
    obtain ⟨busy, -⟩ := fetchReply_next h
    rw [act, fetchReply_of_busy busy] at h
    obtain rfl | ⟨i, rfl, reply⟩ := returnStep_stepOn_next h
    · exact .inl rfl
    · exact .inr (.inl ⟨.inr ⟨answer, rfl⟩, reply, Cpu.inc16_descriptor_cyc i s.cpu⟩)
  | host x =>
    rcases transact_next h with ⟨regs, rfl, rfl⟩ | ⟨rfl, idle, -⟩ |
      ⟨-, c, rfl, rfl | ⟨q, v, -, rfl⟩ | ⟨p, v, -, rfl⟩ | ⟨v, -, rfl⟩⟩
    · exact .inr (.inr ⟨⟨regs, rfl⟩, rfl⟩)
    · rw [act, transact, stepReturning_idle idle] at h
      obtain rfl | ⟨i, rfl, reply⟩ := returnStep_stepOn_next h
      · exact .inl rfl
      · exact .inr (.inl ⟨.inl rfl, reply, Cpu.inc16_descriptor_cyc i s.cpu⟩)
    · exact .inl rfl
    · exact .inl (Cpu.write8_cyc q v s.cpu)
    · exact .inl (Cpu.write16_cyc p v s.cpu)
    · exact .inl rfl

/-- Settles O22, answer by answer: the two faults leave the state, and a handler's opcode gives the instruction's block
written out. -/
theorem stepFetchesDispatchesExecutesCommits : Obligations.StepFetchesDispatchesExecutesCommits := by
  refine fun s idle => ⟨fun exhausted => ?outOfBounds, fun b fetched => ⟨fun unhandled => ?noHandler,
    fun i handled => ?handler⟩⟩
  case outOfBounds =>
    have fault := step_of_outOfBounds idle exhausted
    exact ⟨fault, transact_step_of_fault fault⟩
  case noHandler =>
    have fault := step_of_noHandler idle fetched unhandled
    exact ⟨fault, transact_step_of_fault fault⟩
  case handler =>
    rw [opcode_of_decode handled] at fetched
    intro p t
    have block : s.withCpu (s.cpu.inc16 i.descriptor) = t := congrArg s.withCpu (Cpu.inc16_eq i s.cpu)
    have next := step_of_opcode idle fetched
    have returned := stepReturning_of_opcode idle fetched
    rw [block] at next returned
    rw [Instr.descriptor_cost]
    exact ⟨next, returned, transact_step_eq_ok_iff.mpr returned⟩

/-- Settles O24: a step that returns `Ok` ran one instruction, which adds 8 and leaves the machine idle. -/
theorem returnedCostIsTheCounterDifference : Obligations.ReturnedCostIsTheCounterDifference := by
  intro s t n h
  obtain ⟨idle, i, -, rfl, rfl⟩ := stepReturning_eq_next_iff.mp (transact_step_eq_ok_iff.mp h)
  have after := transact_readCycles_of_idle (s := s.withCpu (s.cpu.inc16 i.descriptor)) idle
  rw [State.withCpu_cpu, Cpu.inc16_descriptor_cyc] at after
  exact ⟨rfl, transact_readCycles_of_idle idle, after⟩

/-- Settles O25: a step's instruction adds 1 to `PC`; a fault leaves the state and records `PC`. -/
theorem programCounterAdvancesByOneOrStays : Obligations.ProgramCounterAdvancesByOneOrStays := by
  refine ⟨fun s t h => ?advances, fun s t f h => ?stays⟩
  case advances =>
    obtain ⟨-, i, -, rfl⟩ := step_next h
    rw [State.withCpu_cpu, Cpu.inc16_descriptor_pc, toNat_add_one]
  case stays =>
    obtain ⟨rfl, fault⟩ := transact_step_eq_fault_iff.mp h
    obtain ⟨-, ⟨-, rfl⟩ | ⟨b, -, -, rfl⟩⟩ := step_eq_fault_iff.mp fault
    · exact ⟨rfl, rfl⟩
    · exact ⟨rfl, rfl⟩

/-- Settles O26: the frame of the instruction whose opcode was fetched at `PC`. -/
theorem sideEffectsOfAStepAreConfined : Obligations.SideEffectsOfAStepAreConfined := by
  refine ⟨fun s t h => ?next, fun s t f h => (transact_step_eq_fault_iff.mp h).1⟩
  obtain ⟨-, i, fetched, rfl⟩ := step_next h
  exact ⟨rfl, rfl, Cpu.inc16_a i.descriptor s.cpu, Cpu.inc16_f i.descriptor s.cpu, i, fetched,
    fun q ne => Cpu.read16_inc16_of_ne ne s.cpu⟩

/-- Settles O27: by the busy port, then by the answer at `PC`, the outcome is written in the block alone. -/
theorem stepDependsOnBlockAndAnswerOnly : Obligations.StepDependsOnBlockAndAnswerOnly := by
  intro s s' sameBusy sameBlock sameAnswer
  cases busy' : s'.busy with
  | true => rw [step_of_busy (sameBusy.trans busy'), step_of_busy busy', mapNext_refused]
  | false =>
    have busy := sameBusy.trans busy'
    cases answer : iFetch s'.collab s'.cpu.pc with
    | noAnswer =>
      rw [step_of_noAnswer busy (sameAnswer.trans answer), step_of_noAnswer busy' answer, sameBlock,
        mapNext_refused]
    | outOfBounds =>
      rw [step_of_outOfBounds busy (sameAnswer.trans answer), step_of_outOfBounds busy' answer, sameBlock,
        mapNext_fault]
    | byte b =>
      cases mux : decode b with
      | noHandler =>
        rw [step_of_noHandler busy (sameAnswer.trans answer) mux, step_of_noHandler busy' answer mux, sameBlock,
          mapNext_fault]
      | handler i =>
        obtain rfl := opcode_of_decode mux
        rw [step_of_opcode busy (sameAnswer.trans answer), step_of_opcode busy' answer]
        simp [sameBlock, sameBusy]

/-- Settles O28: between request and answer only the busy port differs, which the answer lowers again and a reset
lowers too. -/
theorem atomicStepIsRequestThenReply : Obligations.AtomicStepIsRequestThenReply := by
  refine fun s idle => ⟨s.withBusy true, stepRequest_of_idle idle, rfl, rfl, ?none, rfl, ?reply, fun r => rfl⟩
  case none => simp [fetchRequest, idle]
  case reply =>
    rw [fetchReply_of_busy (State.withBusy_busy s true), State.withBusy_withBusy, State.withBusy_eq_self idle,
      transact, stepReturning_idle idle]

/-- Settles O29: the fetch of the next step reads the stream as the event left it. -/
theorem nextFetchSeesAChangedStream : Obligations.NextFetchSeesAChangedStream := by
  refine fun s idle answers => ⟨fun i => ⟨_, rfl, rfl, ?put⟩, fun canonical => ⟨_, rfl, rfl, ?drop⟩⟩
  case put =>
    refine step_eq_exec ((State.withCollab_busy s _).trans idle) (iFetch_eq_byte answers ?_)
    exact (Memory.get_put _ _ _ _).trans (if_pos rfl)
  case drop =>
    refine step_of_outOfBounds ((State.withCollab_busy s _).trans idle) (iFetch_eq_outOfBounds answers ?_)
    exact (Memory.get_drop _ _ canonical).trans (if_pos rfl)

/-- Settles O40: the equation of the step for an exhausted stream, and, of the two faults, the only one of this kind. -/
theorem outOfBoundsFetchOnExhaustedStream : Obligations.OutOfBoundsFetchOnExhaustedStream := by
  refine fun s idle => ⟨fun exhausted => ?arises, fun addr h => ?only⟩
  case arises =>
    have fault := step_of_outOfBounds idle exhausted
    exact ⟨fault, rfl, transact_step_of_fault fault⟩
  case only =>
    obtain ⟨-, ⟨exhausted, same⟩ | ⟨b, -, -, other⟩⟩ := step_eq_fault_iff.mp h
    · cases same; exact ⟨exhausted, rfl⟩
    · cases other

/-- Settles O41: the equation of the step for a byte without a handler, and the transaction that returns its fault. -/
theorem unimplementedOpcodeCommitsNothing : Obligations.UnimplementedOpcodeCommitsNothing := by
  intro s b idle fetched unhandled
  have fault := step_of_noHandler idle fetched unhandled
  exact ⟨fault, rfl, transact_step_of_fault fault⟩

/-- Settles O42: the two faults of a step with the opcode map written out; an instruction always ends in a next state,
and a transaction returns a fault as its reply. -/
theorem stepFaultsInExactlyTwoSituations : Obligations.StepFaultsInExactlyTwoSituations := by
  refine ⟨fun s f => ?step, fun i s f => ?instruction, transact_ne_fault⟩
  case step => simp only [step_eq_fault_iff, decode_eq_noHandler_iff_ne, and_assoc]
  case instruction => simp [exec_eq]

/-- Settles O43: a fault's transaction ends in the state it began in, so the second call does as the first; the ports
are read off, and an `Ok` carries the cost 8. -/
theorem faultsAreReturnedPreciselyAndRepeat : Obligations.FaultsAreReturnedPreciselyAndRepeat := by
  refine ⟨fun s f fault => ?precise, fun f => ?ports, fun _ _ => rfl, fun s t n h => ?ok⟩
  case precise =>
    have returned := transact_step_of_fault fault
    refine ⟨returned, ?_⟩
    have again : runEvents [.host .step] s = .next s := runEvents_cons_eq_next_iff.mpr ⟨s, _, returned, rfl⟩
    exact runEvents_cons_eq_next_iff.mpr ⟨s, _, returned, again⟩
  case ports =>
    cases f with
    | unimplementedOpcode op addr => exact ⟨rfl, rfl, rfl⟩
    | outOfBoundsFetch addr => exact ⟨rfl, rfl, rfl⟩
  case ok =>
    obtain ⟨-, i, -, -, rfl⟩ := stepReturning_eq_next_iff.mp (transact_step_eq_ok_iff.mp h)
    exact ⟨rfl, rfl⟩

/-- Settles O21: the byte is the opcode of the instruction it decodes to, and the answering collaborator gives it. -/
theorem stepRunsTheDecodedInstruction : Obligations.StepRunsTheDecodedInstruction := by
  intro s b i idle answers held handled
  obtain rfl := opcode_of_decode handled
  exact step_eq_exec idle (iFetch_eq_byte answers held)

/-- Settles O30, answer by answer. -/
theorem answeredStepEnds : Obligations.AnsweredStepEnds := by
  refine fun s idle => ⟨fun answered => ?ends, step_of_noAnswer idle⟩
  cases answer : iFetch s.collab s.cpu.pc with
  | noAnswer => exact absurd answer answered
  | outOfBounds => exact .inr ⟨_, step_of_outOfBounds idle answer⟩
  | byte b =>
    cases mux : decode b with
    | noHandler => exact .inr ⟨_, step_of_noHandler idle answer mux⟩
    | handler i =>
      obtain rfl := opcode_of_decode mux
      exact .inl ⟨_, step_of_opcode idle answer⟩

/-- Settles O31: the placed byte is what the next fetch finds, on a machine made idle. -/
theorem placedInstructionRunsNext : Obligations.PlacedInstructionRunsNext :=
  fun s i => ⟨step_eq_exec rfl (iFetch_withFetchWord s i.descriptor.opcode), rfl⟩

end Sys2Proof.Machine

/-! The obligations on the INC16 instructions (spec/41_inc16.md). -/

namespace Sys2Proof.Machine

/-- Settles O32: the block after the one handler all four instructions share, field by field. -/
theorem inc16ChangesItsPairAndNothingElse : Obligations.Inc16ChangesItsPairAndNothingElse := by
  intro i s
  exact ⟨_, exec_eq i s, Cpu.read16_inc16_descriptor i s.cpu, Cpu.inc16_descriptor_pc i s.cpu,
    Cpu.inc16_descriptor_cyc i s.cpu, fun q ne => Cpu.read16_inc16_of_ne ne s.cpu,
    fun r notHigh notLow => Cpu.read8_inc16_of_not_half notHigh notLow s.cpu,
    Cpu.inc16_a i.descriptor s.cpu, Cpu.inc16_f i.descriptor s.cpu, fun _ => rfl, rfl, rfl,
    stepOn_handler (decode_descriptor_opcode i) s⟩

/-- Settles O37: the low half gains 1 and the high half takes its carry; a byte plus 1 is another byte. -/
theorem incrementCarriesFromLowToHighHalf : Obligations.IncrementCarriesFromLowToHighHalf := by
  intro i s hr lr high low
  have highAfter := Cpu.read8_high_inc16 high low s.cpu
  refine ⟨_, exec_eq i s, Cpu.read8_low_inc16 high low s.cpu, highAfter, ?moved⟩
  rw [State.withCpu_cpu, highAfter]
  by_cases full : s.cpu.read8 lr = 0xFF#8
  · simp [full]
  · simp [full]

/-- Settles O38: `write16` leaves `PC` and the collaborator, so the step fetches the instruction and adds 1 to the value
just written. -/
theorem presetStepInspectReturnsTheIncrement : Obligations.PresetStepInspectReturnsTheIncrement := by
  intro i v s idle fetched
  have fetched₁ : iFetch s.collab (s.cpu.write16 i.descriptor.pair v).pc = .byte i.descriptor.opcode := by
    rwa [Cpu.write16_pc]
  have incremented :
      ((s.cpu.write16 i.descriptor.pair v).inc16 i.descriptor).read16 i.descriptor.pair = v + 1 := by
    rw [Cpu.read16_inc16_descriptor, Cpu.read16_write16_self]
  refine ⟨_, _, v + 1, transact_write16_of_idle idle _ v,
    transact_step_of_opcode (s := s.withCpu _) idle fetched₁, ?inspect, toNat_add_one v, ?wrap⟩
  case inspect =>
    rw [← incremented]
    exact transact_read16_of_idle ((State.withCpu_busy s _).trans idle) _
  case wrap => rintro rfl; rfl

/-- Settles O33: the halves are those of `BC` plus 1. -/
theorem incBcIncrementsBc : Obligations.IncBcIncrementsBc := by
  refine ⟨encode_eq .incBc, fun s => ⟨_, _, exec_eq .incBc s, stepOn_handler (decode_descriptor_opcode .incBc) s, ?_⟩⟩
  obtain ⟨value, wrap, carry⟩ := halves_add_one s.cpu.b s.cpu.c
  exact ⟨value, wrap, carry, fun _ => rfl⟩

/-- Settles O34: the halves are those of `DE` plus 1. -/
theorem incDeIncrementsDe : Obligations.IncDeIncrementsDe := by
  refine ⟨encode_eq .incDe, fun s => ⟨_, _, exec_eq .incDe s, stepOn_handler (decode_descriptor_opcode .incDe) s, ?_⟩⟩
  obtain ⟨value, wrap, carry⟩ := halves_add_one s.cpu.d s.cpu.e
  exact ⟨value, wrap, carry, fun _ => rfl⟩

/-- Settles O35: the halves are those of `HL` plus 1, whatever the stream holds. -/
theorem incHlIncrementsHl : Obligations.IncHlIncrementsHl := by
  refine ⟨encode_eq .incHl, fun s => ⟨_, _, exec_eq .incHl s, stepOn_handler (decode_descriptor_opcode .incHl) s, ?_⟩⟩
  obtain ⟨value, wrap, carry⟩ := halves_add_one s.cpu.h s.cpu.l
  exact ⟨value, wrap, carry, fun _ => rfl, fun b => exec_eq .incHl _⟩

/-- Settles O36: `SP` has no halves and gains 1 as it is. -/
theorem incSpIncrementsSp : Obligations.IncSpIncrementsSp := by
  refine ⟨encode_eq .incSp, fun s => ⟨s.cpu.sp + 1, exec_eq .incSp s,
    stepOn_handler (decode_descriptor_opcode .incSp) s, toNat_add_one s.cpu.sp, ?wrap, fun _ => rfl⟩⟩
  intro full
  rw [full]
  rfl

/-- Settles O39: the next state is the old one with another block, and that block is made from the old block alone. -/
theorem instructionsTouchNoDataMemory : Obligations.InstructionsTouchNoDataMemory :=
  fun i s m => ⟨_, exec_eq i s, exec_eq i (s.withCollab m), rfl⟩

end Sys2Proof.Machine

/-! SUPPORT. Builds, and runs of several steps (spec/10_state.md rule R24; spec/60_exceptions.md rules R111, R117;
spec/40_step_dispatch.md rule R90). -/

namespace Sys2Proof.Machine

theorem Build.inScope_iff {b : Build} : b.inScope = true ↔ 64 ≤ b.cycWidth ∧ b.policy = .fatal := by
  simp [Build.inScope]

/-- A build with a fallback handler is refused whatever the model answers (rule R9). -/
theorem inBuild_of_fallback {σ : Type} {b : Build} (fallback : b.policy = .fallback) (cyc : σ → Nat)
    (o : Host.Outcome σ Fault Refusal) : inBuild b cyc o = .refused .fallbackBuild := by
  simp [inBuild, fallback]

/-- A fatal build faults exactly where the model does (rule R111). -/
theorem inBuild_eq_fault_iff {σ : Type} {b : Build} (fatal : b.policy = .fatal) {cyc : σ → Nat}
    {o : Host.Outcome σ Fault Refusal} {f : Fault} : inBuild b cyc o = .fault f ↔ o = .fault f := by
  simp only [inBuild, fatal]
  cases o with
  | next t => simp only [reduceCtorEq, iff_false]; split <;> simp
  | fault g => rfl
  | refused r => rfl

/-- A fatal build refuses a counter past its width (rule R24, log 8). -/
theorem inBuild_of_full {σ : Type} {b : Build} (fatal : b.policy = .fatal) {cyc : σ → Nat} {t : σ}
    (full : 2 ^ b.cycWidth ≤ cyc t) : inBuild b cyc (.next t) = .refused .cycleCounterFull := by
  simp [inBuild, fatal, full]

theorem run_succ_of_next {s t : State} (h : step s = .next t) (n : Nat) : run (n + 1) s = run n t := by
  rw [run_succ, h]

theorem run_succ_of_fault {s : State} {f : Fault} (h : step s = .fault f) (n : Nat) : run (n + 1) s = .fault f := by
  rw [run_succ, h]

/-- A run that ends normally takes its first step and then runs the rest. -/
theorem run_succ_eq_next_iff {n : Nat} {s u : State} :
    run (n + 1) s = .next u ↔ ∃ t, step s = .next t ∧ run n t = .next u := by
  rw [run_succ]
  cases step s <;> simp

/-- A run that goes on where another has ended normally (decision D21). -/
theorem run_add {n : Nat} {s t : State} (h : run n s = .next t) (k : Nat) : run (n + k) s = run k t := by
  induction n generalizing s with
  | zero => cases h; rw [Nat.zero_add]
  | succ n ih =>
    obtain ⟨u, first, rest⟩ := run_succ_eq_next_iff.mp h
    rw [Nat.add_right_comm, run_succ_of_next first, ih rest]

/-- What one instruction adds to the pair of another: 1 to its own, nothing to any other (rules R100, R106). -/
theorem Cpu.toNat_read16_inc16 (i j : Instr) (c : Cpu) :
    ((c.inc16 i.descriptor).read16 j.descriptor.pair).toNat =
      ((c.read16 j.descriptor.pair).toNat + [i].count j) % 65536 := by
  by_cases same : j = i
  · subst same
    rw [Cpu.read16_inc16_descriptor, toNat_add_one, List.count_singleton_self]
  · rw [Cpu.read16_inc16_of_ne (mt pair_inj.mp same), List.count_singleton, if_neg (by simpa using Ne.symm same),
      Nat.add_zero, Nat.mod_eq_of_lt (BitVec.isLt _)]

end Sys2Proof.Machine

/-! The obligations on builds and runs (spec/10_state.md, spec/40_step_dispatch.md, spec/60_exceptions.md). -/

namespace Sys2Proof.Machine

/-- Settles O44: 1 added to 0xFFFF is 0x0000, and no instruction faults; of a full counter a fatal build makes a
refusal. -/
theorem wrapIsNoFault : Obligations.WrapIsNoFault := by
  refine ⟨fun i s idle fetched => ⟨_, step_of_opcode idle fetched, fun full => ?pair, fun full => ?pc⟩,
    fun b s t fatal stepped full => ?counter⟩
  case pair => rw [State.withCpu_cpu, Cpu.read16_inc16_descriptor, full]; rfl
  case pc => rw [State.withCpu_cpu, Cpu.inc16_descriptor_pc, full]; rfl
  case counter => rw [stepBuild, stepped]; exact inBuild_of_full fatal full

/-- Settles O45: what a build makes of an outcome, for a step and for an event alike; 2^64 fits every width in scope. -/
theorem buildInScopeStepsAsTheModel : Obligations.BuildInScopeStepsAsTheModel := by
  refine ⟨fun b s scope => ?scope, fun b s fallback =>
    ⟨inBuild_of_fallback fallback _ _, fun e => inBuild_of_fallback fallback _ _⟩⟩
  obtain ⟨width, fatal⟩ := Build.inScope_iff.mp scope
  have next : ∀ t, stepBuild b s = .next t ↔ step s = .next t ∧ t.cpu.cyc < 2 ^ b.cycWidth := fun t =>
    inBuild_next.trans (and_iff_right fatal)
  have fits : 2 ^ 64 ≤ 2 ^ b.cycWidth := Nat.pow_le_pow_right (by decide) width
  exact ⟨next, fun t stepped small => (next t).mpr ⟨stepped, small.trans_le fits⟩,
    fun f => inBuild_eq_fault_iff fatal, fun e t r => inBuild_next.trans (and_iff_right fatal)⟩

/-- Settles O46, by induction on the number of steps. -/
theorem runChargesEightCyclesPerStep : Obligations.RunChargesEightCyclesPerStep := by
  intro n
  induction n with
  | zero =>
    intro s t h
    cases h
    exact ⟨rfl, (Nat.mod_eq_of_lt s.cpu.pc.isLt).symm, rfl, rfl, rfl, rfl⟩
  | succ n ih =>
    intro s t h
    obtain ⟨u, first, rest⟩ := run_succ_eq_next_iff.mp h
    obtain ⟨-, i, -, rfl⟩ := step_next first
    obtain ⟨cyc, pc, a, f, collab, busy⟩ := ih _ t rest
    rw [State.withCpu_cpu] at cyc pc a f
    rw [Cpu.inc16_descriptor_cyc] at cyc
    rw [Cpu.inc16_descriptor_pc, toNat_add_one] at pc
    rw [Cpu.inc16_a] at a
    rw [Cpu.inc16_f] at f
    exact ⟨by omega, by omega, a, f, collab, busy⟩

/-- Settles O47, by induction on the list: the first opcode runs its instruction and leaves a machine that holds the
rest at `PC`; what the run does to everything but the pairs is O46. -/
theorem runAddsTheCountOfEachInstruction : Obligations.RunAddsTheCountOfEachInstruction := by
  intro is s idle holds
  suffices normal : ∃ t, run is.length s = .next t ∧ ∀ i : Instr, (t.cpu.read16 i.descriptor.pair).toNat =
      ((s.cpu.read16 i.descriptor.pair).toNat + is.count i) % 65536 by
    obtain ⟨t, ran, pairs⟩ := normal
    obtain ⟨cyc, pc, a, f, collab, busy⟩ := runChargesEightCyclesPerStep is.length s t ran
    exact ⟨t, ran, pairs, pc, cyc, a, f, collab, busy.trans idle⟩
  induction is generalizing s with
  | nil => exact ⟨s, rfl, fun i => (Nat.mod_eq_of_lt (BitVec.isLt _)).symm⟩
  | cons i is ih =>
    obtain ⟨fetched, holdsRest⟩ := holds
    rw [← Cpu.inc16_descriptor_pc i s.cpu] at holdsRest
    obtain ⟨t, ran, pairs⟩ := ih (s.withCpu (s.cpu.inc16 i.descriptor)) idle holdsRest
    refine ⟨t, (run_succ_of_next (step_of_opcode idle fetched) is.length).trans ran, fun j => ?_⟩
    have counts : (i :: is).count j = [i].count j + is.count j := List.count_append (l₁ := [i])
    rw [pairs, State.withCpu_cpu, Cpu.toNat_read16_inc16, counts]
    omega

/-- Settles O48: the longer run goes on where the normal one ended, with the step that faults. -/
theorem firstFaultEndsEveryLongerRun : Obligations.FirstFaultEndsEveryLongerRun := by
  intro n k s t f ran fault
  rw [Nat.add_assoc, Nat.add_comm 1 k, run_add ran, run_succ_of_fault fault]

end Sys2Proof.Machine
